-- ==== Sys2Proof/Word.lean ====
section
/-! DEFINITION. The word types of the block (spec/00_scope.md R5, R6): bytes, and the one 16-bit value, the button
vector. Bit 0 is the least significant bit of either. -/

namespace Sys2Proof

/-- A byte: the unit of every space of the block (20_memory R30, R35). -/
abbrev Byte := BitVec 8

/-- The width of the button register and of the packet's button bitmask (00_scope R5). -/
abbrev Half := BitVec 16

end Sys2Proof
end

