-- ==== Sys2Proof/Config.lean ====
section
/-! DEFINITION. The constants and parameters of 00_scope R5. The constants are definitions. The parameters are one
structure of plain data, `Config`, which the state carries unchanged, so that what holds of every state holds of every
configuration. `Config.standard` is the configuration of the decided defaults (92_eei_decisions D2 to D11), the one
every test vector of spec/95_test_vectors.md uses. -/

namespace Sys2Proof

/-- `DELIM`, the frame delimiter byte (R5, 30_encoding R51). -/
def delim : Byte := 0x00

/-- `PKT_LEN`, the size of a packet after escape decoding (R5, conflict C1). -/
def pktLen : Nat := 11

/-- `BUS_PAYLOAD_LEN` (R5). -/
def busPayloadLen : Nat := 8

/-- `BUTTON_ID`, the identifier of the bus button message (R5). -/
def buttonId : Nat := 51

/-- `BTN_BYTE_ORDER`: which byte of the packet's bitmask, the one at offset 7 or the one at offset 8, is the low
one (20_memory R32). -/
inductive ByteOrder where
  | little
  | big
deriving DecidableEq, Repr

/-- `BUS_BTN_HI`: what BUS.BUTTON does to the button bits its message does not carry (40 R72, D11). -/
inductive BusBtnHi where
  | clear
  | preserve
deriving DecidableEq, Repr

/-- Which escape coding is built in (42 R90 to R96). `cobs` is the decided default (D3). `external` is any other
coding that 42 R91 admits, of which the model assumes nothing else (log entry 8). -/
inductive EscCoding where
  | cobs
  | external
deriving DecidableEq, Repr

/-- `DPAD_CODE`: the numeric code of each of the nine direction values (10_state R15). -/
structure DpadCodes where
  c  : Byte
  u  : Byte
  ur : Byte
  r  : Byte
  dr : Byte
  d  : Byte
  dl : Byte
  l  : Byte
  ul : Byte
deriving DecidableEq, Repr

/-- `BTN_BIT`: the bit position of each of the ten named buttons (10_state R14). -/
structure ButtonBits where
  facePrimary    : Fin 16
  faceSecondary  : Fin 16
  faceTertiary   : Fin 16
  faceQuaternary : Fin 16
  aux0 : Fin 16
  aux1 : Fin 16
  aux2 : Fin 16
  aux3 : Fin 16
  aux4 : Fin 16
  aux5 : Fin 16
deriving DecidableEq, Repr

/-- A value of the canonical state register `CS`: its eight fields, 72 bits (10_state R11). A stick field holds the
bits it was written with; `Machine.stickValue` is its signed reading (R12). -/
structure CS where
  s0x  : Byte
  s0y  : Byte
  s1x  : Byte
  s1y  : Byte
  t0   : Byte
  t1   : Byte
  btn  : Half
  dpad : Byte
deriving DecidableEq, Repr

/-- The parameters of 00_scope R5, fixed when the block is built. -/
structure Config where
  /-- `BUF_MAX`: how many non-delimiter bytes the accumulation buffer holds (D4). -/
  bufMax : Nat
  /-- `HEADER`: the packet's sentinel byte (D5). -/
  header : Byte
  /-- `BTN_BYTE_ORDER` (D6). -/
  btnByteOrder : ByteOrder
  /-- `DPAD_CODE` (D7). -/
  dpadCode : DpadCodes
  /-- `BTN_BIT` (D8). -/
  btnBit : ButtonBits
  /-- `EscDecode` (D3). -/
  esc : EscCoding
  /-- `ANALOG_ID` (D9). -/
  analogId : Nat
  /-- `ID_WIDTH`: the width in bits of a bus identifier (D9). -/
  idWidth : Nat
  /-- `HAS_BUS_PORT`: whether the BUS unit is present (D2). -/
  hasBusPort : Bool
  /-- `CS_RESET`: the value of `CS` after the power-on reset (D10). -/
  csReset : CS
  /-- `BUS_BTN_HI` (D11). -/
  busBtnHi : BusBtnHi
deriving DecidableEq, Repr

/-- The obligations on an escape decoder and its matching encoder (42 R91), the admissible values of the parameter
`EscDecode` (00_scope R5). Item 4, determinism, is what a function is. Item 3, the delimiter as part of the unit, is how
`frameVerdict` calls the decoder. -/
structure EscObligations (encode : List Byte → List Byte) (decode : List Byte → Option (List Byte)) : Prop where
  /-- Item 1: an encoding contains no delimiter. -/
  zeroFree : ∀ p, ∀ b ∈ encode p, b ≠ delim
  /-- Item 2: the unit of an encoded packet decodes back. -/
  roundTrip : ∀ p, p.length = pktLen → decode (encode p ++ [delim]) = some p
  /-- Item 5: the decoded sequence is never longer than the argument. -/
  bounded : ∀ u out, decode u = some out → out.length ≤ u.length

/-- An escape coding: an encoder, a total pure decoder (42 R90), and that the two meet R91. -/
structure EscCodec where
  encode : List Byte → List Byte
  decode : List Byte → Option (List Byte)
  meets : EscObligations encode decode

/-- The escape coding of a block that does not use the default: an uninterpreted coding (U15, log entry 8). Nothing in
Lean can evaluate it, so a statement about it holds for every coding that meets R91, and it meets R91 by its type. Its
argument only says that there is such a coding. -/
opaque Config.externalEsc [Inhabited EscCodec] : EscCodec

/-- The neutral snapshot (10_state R26): sticks centred, triggers released, no button, direction code 0. -/
def CS.neutral : CS :=
  { s0x := 0, s0y := 0, s1x := 0, s1y := 0, t0 := 0, t1 := 0, btn := 0, dpad := 0 }

/-- The default direction codes: centre 0, then clockwise from up (10_state R15, D7). -/
def DpadCodes.standard : DpadCodes :=
  { c := 0, u := 1, ur := 2, r := 3, dr := 4, d := 5, dl := 6, l := 7, ul := 8 }

/-- The default button positions: the face buttons, then the six further buttons (10_state R14, D8). -/
def ButtonBits.standard : ButtonBits :=
  { facePrimary := 0, faceSecondary := 1, faceTertiary := 2, faceQuaternary := 3,
    aux0 := 4, aux1 := 5, aux2 := 6, aux3 := 7, aux4 := 8, aux5 := 9 }

/-- The decided defaults of R5. DESIGN CHOICE for the two OPEN parameters: `BUF_MAX` 16 and `ID_WIDTH` 11, the values
of the spec's test vectors (log entry 2). -/
def Config.standard : Config :=
  { bufMax := 16
    header := 0xAA
    btnByteOrder := .little
    dpadCode := DpadCodes.standard
    btnBit := ButtonBits.standard
    esc := .cobs
    analogId := 50
    idWidth := 11
    hasBusPort := true
    csReset := CS.neutral
    busBtnHi := .clear }

end Sys2Proof
end

