-- ==== Sys2Proof/Syntax.lean ====
section
/-! DEFINITION. The operations of the block (00_scope R4, spec/opcode_table.json, one constructor of `Instr` per row),
their operands, the requests a caller can issue (30_encoding R61), the written form of an operation, and the names of
what can be wrong with a frame (60 R122) or with a request. -/

namespace Sys2Proof

/-- The nine direction values (10_state R15). -/
inductive Dir where
  | c | u | ur | r | dr | d | dl | l | ul
deriving DecidableEq, Repr

/-- The ten named buttons (10_state R14). -/
inductive Button where
  | facePrimary | faceSecondary | faceTertiary | faceQuaternary
  | aux0 | aux1 | aux2 | aux3 | aux4 | aux5
deriving DecidableEq, Repr

/-- The field names of `CS`, the operand of Q.RAW (44 R113). -/
inductive CsField where
  | s0x | s0y | s1x | s1y | t0 | t1 | btn | dpad
deriving DecidableEq, Repr

/-- A bus payload, exactly eight bytes (30_encoding R55; the space PAY of 20_memory R30). -/
structure Payload where
  p0 : Byte
  p1 : Byte
  p2 : Byte
  p3 : Byte
  p4 : Byte
  p5 : Byte
  p6 : Byte
  p7 : Byte
deriving DecidableEq, Repr

/-- A packet that has passed the three checks (30_encoding R53): the nine bytes at offsets 1 to 9. The header and the
checksum are fixed by the configuration and by these nine bytes, so they are no operands (43 R106). `btn7` and `btn8`
are the two bytes of the bitmask, at offsets 7 and 8. -/
structure Packet where
  s0x  : Byte
  s0y  : Byte
  s1x  : Byte
  s1y  : Byte
  t0   : Byte
  t1   : Byte
  btn7 : Byte
  btn8 : Byte
  dpad : Byte
deriving DecidableEq, Repr

/-- The operations, one per row of spec/opcode_table.json, in its order. -/
inductive Instr where
  /-- `PUSH.DELIM`: PUSH of the byte 0x00 (41 R82). -/
  | pushDelim
  /-- `PUSH.DATA(b)`: PUSH of a byte other than 0x00 (41 R81). -/
  | pushData (b : Byte)
  /-- `PUSHN(seq)`: one PUSH per byte of a finite sequence (41 R84). -/
  | pushN (seq : List Byte)
  /-- `FRESET`: the explicit framer reset (41 R85). -/
  | fReset
  /-- `PKT.UPDATE(pkt)`: the projection of a valid packet, internal to PUSH.DELIM (43 R104). -/
  | pktUpdate (pkt : Packet)
  /-- `BUS.ANALOG(p)` (40 R71). -/
  | busAnalog (p : Payload)
  /-- `BUS.BUTTON(p)` (40 R72). -/
  | busButton (p : Payload)
  /-- `BUS.IGNORE`: a message with any other identifier, whose payload is not read (40 R73). -/
  | busIgnore (id : Nat) (p : Payload)
  /-- `Q.BUTTON(i)`, a button index 0 to 15 (44 R111). An index above 15 is unrepresentable (U9). -/
  | qButton (i : Fin 16)
  /-- `Q.DPAD` (44 R112). -/
  | qDpad
  /-- `Q.RAW(f)` (44 R113). -/
  | qRaw (f : CsField)
  /-- `PRESET`: the power-on reset (70 R141). -/
  | pReset
deriving DecidableEq, Repr

/-- What a caller can ask for: an entry point and the value it carries (30_encoding R61). PKT.UPDATE is no entry
point (43 R104). The values are the caller's, so they are not yet checked. -/
inductive Request where
  | push (b : Byte)
  | pushN (seq : List Byte)
  | busMsg (id : Nat) (payload : List Byte)
  | fReset
  | qButton (i : Nat)
  | qDpad
  | qRaw (f : CsField)
  | pReset
deriving DecidableEq, Repr

/-- The written form of an operation: a caller's request, or, for the internal PKT.UPDATE, the bytes of a packet in
the format PKT11 (30_encoding R50). -/
inductive Encoded where
  | request (r : Request)
  | packet (bytes : List Byte)
deriving DecidableEq, Repr

/-- The causes of 60 R122. They are labels for the reader: a drop discards its cause, and no state holds one. -/
inductive Cause where
  | noneEmpty
  | decode
  | length
  | header
  | checksum
  | overflow
  | unknownId
deriving DecidableEq, Repr

/-- The label column of 60 R122. -/
def Cause.label : Cause → Nat
  | .noneEmpty => 0
  | .decode => 1
  | .length => 2
  | .header => 3
  | .checksum => 4
  | .overflow => 5
  | .unknownId => 6

/-- Why the decoder reads no operation from a written form. -/
inductive Reject where
  /-- The bytes are no well-formed packet; the cause says which check fails first (43 R100 to R102). -/
  | badPacket (cause : Cause)
  /-- A bus message without exactly eight payload bytes cannot be presented to the block (U16). -/
  | payloadLength
  /-- The identifier is no number of `ID_WIDTH` bits (30_encoding R55). -/
  | idTooWide
  /-- A button index above 15 names no bit (44 R111, U9). -/
  | buttonIndex
deriving DecidableEq, Repr

end Sys2Proof
end

