-- ==== Sys2Proof/WellFormed.lean ====
section
/-! DEFINITION. Which operations and which configurations are well formed: the operand constraints of
spec/opcode_table.json, and the "admissible values" column of 00_scope R5. -/

namespace Sys2Proof

/-- The operand constraints of the opcode table. PUSH.DATA carries no delimiter (30_encoding R51). BUS.IGNORE carries
an identifier of `ID_WIDTH` bits that is neither of the two recognised ones (30_encoding R55). Every other operand is
admissible at every value of its type. -/
def Instr.wf (c : Config) : Instr → Bool
  | .pushDelim => true
  | .pushData b => decide (b ≠ delim)
  | .pushN _ => true
  | .fReset => true
  | .pktUpdate _ => true
  | .busAnalog _ => true
  | .busButton _ => true
  | .busIgnore id _ => decide (id < 2 ^ c.idWidth ∧ id ≠ c.analogId ∧ id ≠ buttonId)
  | .qButton _ => true
  | .qDpad => true
  | .qRaw _ => true
  | .pReset => true

/-- The nine codes in the order of 10_state R15. -/
def DpadCodes.toList (k : DpadCodes) : List Byte :=
  [k.c, k.u, k.ur, k.r, k.dr, k.d, k.dl, k.l, k.ul]

/-- The ten positions in the order of 10_state R14. -/
def ButtonBits.toList (k : ButtonBits) : List (Fin 16) :=
  [k.facePrimary, k.faceSecondary, k.faceTertiary, k.faceQuaternary,
    k.aux0, k.aux1, k.aux2, k.aux3, k.aux4, k.aux5]

/-- The admissible values of 00_scope R5: a buffer of at least one byte, injective direction codes and button
positions, identifiers of at least 6 bits, and an analog identifier of that width other than 51. That `EscDecode` meets
42 R91 is no further check: the coding `escDecode` and `escEncode` stand for has it by construction (`EscCodec.meets`),
and for the default it is a statement about them. -/
def Config.admissible (c : Config) : Bool :=
  decide (1 ≤ c.bufMax) && decide c.dpadCode.toList.Nodup && decide c.btnBit.toList.Nodup
    && decide (6 ≤ c.idWidth) && decide (c.analogId < 2 ^ c.idWidth) && decide (c.analogId ≠ buttonId)

end Sys2Proof
end

