-- ==== Sys2Proof/Decode.lean ====
section
/-! DEFINITION. The decoder and the encoder. What the block decodes are single stream bytes, 11-byte packets and bus
messages (30_encoding R50); a caller's request is decoded by its entry point first and then by the value it carries
(R61). The escape layer of a terminated frame is Machine/Escape.lean. Every decoder is total and says by name why it
reads no operation. -/

namespace Sys2Proof

/-! ### Formats -/

/-- STREAM_BYTE (30_encoding R51): 0x00 is the delimiter, every other byte is data. -/
def decodeByte (b : Byte) : Instr :=
  if b = delim then .pushDelim else .pushData b

/-- The eight bytes of a payload; any other number of bytes is no payload (U16). -/
def Payload.ofList : List Byte → Option Payload
  | [b0, b1, b2, b3, b4, b5, b6, b7] =>
    some { p0 := b0, p1 := b1, p2 := b2, p3 := b3, p4 := b4, p5 := b5, p6 := b6, p7 := b7 }
  | _ => none

/-- The payload's bytes, `p[0]` first. -/
def Payload.toList (p : Payload) : List Byte :=
  [p.p0, p.p1, p.p2, p.p3, p.p4, p.p5, p.p6, p.p7]

/-- BUSMSG (30_encoding R55, 40 R70): dispatch on the identifier alone. -/
def decodeBus (c : Config) (id : Nat) (p : Payload) : Instr :=
  if id = c.analogId then .busAnalog p
  else if id = buttonId then .busButton p
  else .busIgnore id p

/-- `xor8`: the exclusive-or of every byte of a sequence; 0x00 for the empty one (00_scope R7). -/
def xor8 (s : List Byte) : Byte :=
  s.foldl (· ^^^ ·) 0

/-- The bytes at offsets 1 to 9. -/
def Packet.body (p : Packet) : List Byte :=
  [p.s0x, p.s0y, p.s1x, p.s1y, p.t0, p.t1, p.btn7, p.btn8, p.dpad]

/-- PKT11 (30_encoding R53): the length check first, then the header check, then the checksum check (43 R100 to R102,
60 R124). No offset is read before the length is known to be 11 (20_memory R36). -/
def decodePacket (c : Config) : List Byte → Except Cause Packet
  | [hdr, s0x, s0y, s1x, s1y, t0, t1, btn7, btn8, dpad, chk] =>
    if hdr ≠ c.header then .error .header
    else if chk ≠ xor8 [hdr, s0x, s0y, s1x, s1y, t0, t1, btn7, btn8, dpad] then .error .checksum
    else .ok { s0x, s0y, s1x, s1y, t0, t1, btn7, btn8, dpad }
  | _ => .error .length

/-- The one well-formed packet with these nine body bytes (30_encoding R53, R54, R62). -/
def encodePacket (c : Config) (p : Packet) : List Byte :=
  c.header :: p.body ++ [xor8 (c.header :: p.body)]

/-! ### Operations -/

/-- A caller's request (30_encoding R61). A BUSMSG needs exactly eight payload bytes and an identifier of `ID_WIDTH`
bits (R55); a button index is at most 15 (44 R111). -/
def decodeRequest (c : Config) : Request → Except Reject Instr
  | .push b => .ok (decodeByte b)
  | .pushN seq => .ok (.pushN seq)
  | .busMsg id payload =>
    match Payload.ofList payload with
    | none => .error .payloadLength
    | some p => if id < 2 ^ c.idWidth then .ok (decodeBus c id p) else .error .idTooWide
  | .fReset => .ok .fReset
  | .qButton i => if h : i < 16 then .ok (.qButton ⟨i, h⟩) else .error .buttonIndex
  | .qDpad => .ok .qDpad
  | .qRaw f => .ok (.qRaw f)
  | .pReset => .ok .pReset

/-- The operation a written form stands for, or the name of what is wrong with it. -/
def decode (c : Config) : Encoded → Except Reject Instr
  | .request r => decodeRequest c r
  | .packet bytes =>
    match decodePacket c bytes with
    | .ok p => .ok (.pktUpdate p)
    | .error cause => .error (.badPacket cause)

/-- The written form of an operation, from the same tables. -/
def encode (c : Config) : Instr → Encoded
  | .pushDelim => .request (.push delim)
  | .pushData b => .request (.push b)
  | .pushN seq => .request (.pushN seq)
  | .fReset => .request .fReset
  | .pktUpdate p => .packet (encodePacket c p)
  | .busAnalog p => .request (.busMsg c.analogId p.toList)
  | .busButton p => .request (.busMsg buttonId p.toList)
  | .busIgnore id p => .request (.busMsg id p.toList)
  | .qButton i => .request (.qButton i)
  | .qDpad => .request .qDpad
  | .qRaw f => .request (.qRaw f)
  | .pReset => .request .pReset

/-! ### The opcode table's numbering -/

/-- The `n` bytes of a number, least significant first: the first byte of a format has bits 7..0. -/
def bytesOf : Nat → Nat → List Byte
  | 0, _ => []
  | n + 1, w => BitVec.ofNat 8 w :: bytesOf n (w / 256)

/-- The written form whose bits are `w`, `nbits` of them, by the widths of spec/opcode_table.json: 8 bits for a
STREAM_BYTE, 88 for a PKT11, and `ID_WIDTH + 64` for a BUSMSG, as they are or in whole bytes. A BUSMSG has its
identifier in bits `ID_WIDTH - 1 .. 0` and payload byte `k` in the eight bits from `ID_WIDTH + 8k` (DESIGN CHOICE, log
entry 18). The other rows have no encoding (30_encoding R61), so no word stands for them. -/
def encodedOfWord (c : Config) (nbits w : Nat) : Option Encoded :=
  if nbits = 8 then some (.request (.push (BitVec.ofNat 8 w)))
  else if nbits = 8 * pktLen then some (.packet (bytesOf pktLen w))
  else if nbits = c.idWidth + 64 ∨ nbits = 8 * ((c.idWidth + 64 + 7) / 8) then
    if w < 2 ^ (c.idWidth + 64) then
      some (.request (.busMsg (w % 2 ^ c.idWidth) (bytesOf busPayloadLen (w / 2 ^ c.idWidth))))
    else none
  else none

/-- The operation the decoder reads, under the default configuration, from a word numbered as the opcode table
numbers it. -/
def decodeTableWord (nbits w : Nat) : Option Instr :=
  match encodedOfWord Config.standard nbits w with
  | none => none
  | some e =>
    match decode Config.standard e with
    | .ok i => some i
    | .error _ => none

end Sys2Proof
end

