-- ==== Sys2Proof/Machine/Escape.lean ====
section
/-! DEFINITION. Escape decoding (spec/42_escape_decoding.md): the parameter `EscDecode` and its default, strict COBS.
PRESUMED: the coding is general knowledge that the spec adopts (D3, G1, log entry 7). The encoder is no part of the
block; it states the round trip (R95). -/

namespace Sys2Proof.Machine

/-- The loop of 42 R93 over the encoded bytes not yet read, with the bytes put out so far. `fuel` bounds the number of
blocks; as each block takes at least its code byte, the number of encoded bytes is enough. No encoded byte of a unit is
0x00. Where one is all the same, DESIGN CHOICE (U11, log entry 9): as a code byte the answer is `fail`, as a data byte it
is copied like any other. -/
def cobsBlocks : Nat → List Byte → List Byte → Option (List Byte)
  | _, [], out => some out
  | 0, _ :: _, _ => none
  | fuel + 1, code :: rest, out =>
    let n := code.toNat - 1
    if code = 0 then none
    else if rest.length < n then none
    else if code ≠ 0xFF ∧ n < rest.length then
      cobsBlocks fuel (rest.drop n) (out ++ rest.take n ++ [0])
    else cobsBlocks fuel (rest.drop n) (out ++ rest.take n)

/-- The default `EscDecode` (42 R93): strict COBS of the encoded bytes before the delimiter. What it answers for an
argument that is no unit is a DESIGN CHOICE (U11, log entry 9): `fail` where the last byte is not the delimiter, the
empty sequence for the delimiter alone, and for a 0x00 among the encoded bytes what `cobsBlocks` says. -/
def cobsDecode (u : List Byte) : Option (List Byte) :=
  if u.getLast? = some delim then cobsBlocks u.dropLast.length u.dropLast [] else none

/-- One block: its code byte, the number of its data bytes plus one, and its data bytes (42 R95). -/
def cobsBlock (block : List Byte) : List Byte :=
  BitVec.ofNat 8 (block.length + 1) :: block

/-- The default encoder from the current block on (42 R95). A block that reaches 254 data bytes ends there, with the
code 0xFF and no zero after it (R92): that is beyond R95, whose data is shorter (PRESUMED, log entry 29). -/
def cobsEncodeFrom : List Byte → List Byte → List Byte
  | block, [] => cobsBlock block
  | block, x :: rest =>
    if x = 0 then cobsBlock block ++ cobsEncodeFrom [] rest
    else if block.length = 253 then cobsBlock (block ++ [x]) ++ cobsEncodeFrom [] rest
    else cobsEncodeFrom (block ++ [x]) rest

/-- The default `EscEncode` (42 R95). -/
def cobsEncode (p : List Byte) : List Byte :=
  cobsEncodeFrom [] p

/-! ### The coding a block is built with -/

/-- A coding of two bytes for each: 01 01 for a zero, 02 and the byte for any other. It only shows that 42 R91 can be
met, as the uninterpreted coding needs; no block is built with it. -/
def pairEncode : List Byte → List Byte
  | [] => []
  | b :: rest => (if b = 0 then [1, 1] else [2, b]) ++ pairEncode rest

/-- The decoder of `pairEncode`; it reads no further than the whole pairs. -/
def pairDecode : List Byte → Option (List Byte)
  | tag :: b :: rest => (pairDecode rest).map ((if tag = 1 then 0 else b) :: ·)
  | _ => some []

theorem pairEncode_zeroFree (p : List Byte) : ∀ b ∈ pairEncode p, b ≠ delim := by
  induction p with
  | nil => simp [pairEncode]
  | cons x rest ih =>
    intro b hb
    rcases List.mem_append.1 hb with hb | hb
    · split at hb
      · simp at hb; subst hb; decide
      · rename_i hx
        simp at hb
        rcases hb with rfl | rfl
        · decide
        · exact hx
    · exact ih b hb

theorem pairDecode_pairEncode (p : List Byte) : pairDecode (pairEncode p ++ [delim]) = some p := by
  induction p with
  | nil => rfl
  | cons x rest ih =>
    by_cases hx : x = 0
    · simp [pairEncode, pairDecode, hx, ih]
    · rw [pairEncode, if_neg hx]
      simp [pairDecode, ih]

theorem pairDecode_bounded : ∀ u out : List Byte, pairDecode u = some out → out.length ≤ u.length
  | [], out, h => by simp_all [pairDecode]
  | [_], out, h => by cases h; simp
  | tag :: b :: rest, out, h => by
    simp only [pairDecode, Option.map_eq_some_iff] at h
    obtain ⟨tail, htail, rfl⟩ := h
    have := pairDecode_bounded rest tail htail
    simp; omega

/-- That there is a coding which meets 42 R91. -/
def pairCodec : EscCodec :=
  { encode := pairEncode
    decode := pairDecode
    meets := ⟨pairEncode_zeroFree, fun p _ => pairDecode_pairEncode p, pairDecode_bounded⟩ }

/-- The coding of a block that does not use the default. -/
def externalCodec : EscCodec :=
  @Config.externalEsc ⟨pairCodec⟩

/-- `EscDecode` (42 R90): the decoder of the coding the block is built with. -/
def escDecode (c : Config) (u : List Byte) : Option (List Byte) :=
  match c.esc with
  | .cobs => cobsDecode u
  | .external => externalCodec.decode u

/-- `EscEncode` (42 R91): the matching encoder, no part of the block. -/
def escEncode (c : Config) (p : List Byte) : List Byte :=
  match c.esc with
  | .cobs => cobsEncode p
  | .external => externalCodec.encode p

end Sys2Proof.Machine
end

