-- ==== Sys2Proof/Machine/Flags.lean ====
section
/-! DEFINITION. The block has no status flags or condition codes (10_state R23), so no operation computes any. The one
computation on flags is the D-Pad Encoding Rule, which combines the four direction flags of a bus button message into
one direction (40 R74). -/

namespace Sys2Proof.Machine

/-- The four direction flags (30_encoding R57, R58): bits 0 to 3 of `p[0]`. The upper four bits are not read. -/
structure DirFlags where
  down  : Bool
  left  : Bool
  up    : Bool
  right : Bool
deriving DecidableEq, Repr

/-- `down = p[0][0]`, `left = p[0][1]`, `up = p[0][2]`, `right = p[0][3]` (30_encoding R58). -/
def dirFlags (p0 : Byte) : DirFlags :=
  { down := p0.getLsbD 0, left := p0.getLsbD 1, up := p0.getLsbD 2, right := p0.getLsbD 3 }

/-- `dpad_rule` (40 R74): diagonals before single directions, first match wins. -/
def dpadRule (f : DirFlags) : Dir :=
  if f.up && f.right then .ur
  else if f.down && f.right then .dr
  else if f.down && f.left then .dl
  else if f.up && f.left then .ul
  else if f.up then .u
  else if f.right then .r
  else if f.down then .d
  else if f.left then .l
  else .c

end Sys2Proof.Machine
end

