-- ==== Sys2Proof/Machine/Operands.lean ====
section
/-! DEFINITION. How operands are assembled from the bits they arrive in (30_encoding R58), and how the fields of `CS`
are read. -/

namespace Sys2Proof.Machine

/-- The signed reading `sext_8` of a stick field, an integer in -128 .. 127 (10_state R12). PRESUMED two's
complement (G2, log entry 23). Fields are copied as bits, so no operation depends on it. -/
def stickValue (v : Byte) : Int :=
  v.toInt

/-- The code of a direction: the parameter `DPAD_CODE` (10_state R15). -/
def dirCode (k : DpadCodes) : Dir → Byte
  | .c => k.c
  | .u => k.u
  | .ur => k.ur
  | .r => k.r
  | .dr => k.dr
  | .d => k.d
  | .dl => k.dl
  | .l => k.l
  | .ul => k.ul

/-- A typed reading of a direction code: one of the nine directions, or a reserved code, to which no direction may be
attributed (10_state R15, 44 R112, U4). -/
inductive DirReading where
  | direction (dir : Dir)
  | reserved (code : Byte)
deriving DecidableEq, Repr

/-- The typed reading of a stored direction code (44 R112). -/
def readDir (k : DpadCodes) (v : Byte) : DirReading :=
  match [Dir.c, .u, .ur, .r, .dr, .d, .dl, .l, .ul].find? (fun dir => dirCode k dir = v) with
  | some dir => .direction dir
  | none => .reserved v

/-- The bit of the button register that holds a named button: the parameter `BTN_BIT` (10_state R14). -/
def buttonBit (k : ButtonBits) : Button → Fin 16
  | .facePrimary => k.facePrimary
  | .faceSecondary => k.faceSecondary
  | .faceTertiary => k.faceTertiary
  | .faceQuaternary => k.faceQuaternary
  | .aux0 => k.aux0
  | .aux1 => k.aux1
  | .aux2 => k.aux2
  | .aux3 => k.aux3
  | .aux4 => k.aux4
  | .aux5 => k.aux5

/-- Whether a bus button message says that a button is pressed (30_encoding R57): a bit of `p[1]` for a face button,
a whole non-zero byte for a further button. -/
def busPressed (p : Payload) : Button → Bool
  | .facePrimary => p.p1.getLsbD 0
  | .faceSecondary => p.p1.getLsbD 1
  | .faceTertiary => p.p1.getLsbD 2
  | .faceQuaternary => p.p1.getLsbD 3
  | .aux0 => decide (p.p2 ≠ 0)
  | .aux1 => decide (p.p3 ≠ 0)
  | .aux2 => decide (p.p4 ≠ 0)
  | .aux3 => decide (p.p5 ≠ 0)
  | .aux4 => decide (p.p6 ≠ 0)
  | .aux5 => decide (p.p7 ≠ 0)

/-- The ten named buttons in the order of 10_state R14. -/
def allButtons : List Button :=
  [.facePrimary, .faceSecondary, .faceTertiary, .faceQuaternary,
    .aux0, .aux1, .aux2, .aux3, .aux4, .aux5]

/-- `v` with bit `i` set to `b`. -/
def setBit (v : Half) (i : Fin 16) (b : Bool) : Half :=
  if b then v ||| ((1 : Half) <<< i.val) else v &&& ~~~((1 : Half) <<< i.val)

/-- The button register that BUS.BUTTON writes over `old` (40 R72): every named button at the bit `BTN_BIT` gives it,
and the bits no named button occupies, which are bits 10 to 15 by default, cleared or kept as `BUS_BTN_HI` says
(log entries 6 and 13). -/
def busButtons (c : Config) (p : Payload) (old : Half) : Half :=
  allButtons.foldl (fun v b => setBit v (buttonBit c.btnBit b) (busPressed p b))
    (match c.busBtnHi with
     | .clear => 0
     | .preserve => old)

/-- The direction code that BUS.BUTTON writes (40 R72). -/
def busDirCode (c : Config) (p : Payload) : Byte :=
  dirCode c.dpadCode (dpadRule (dirFlags p.p0))

/-- The packet's 16-bit bitmask (20_memory R32): `{PKT[8], PKT[7]}` when little, `{PKT[7], PKT[8]}` when big. -/
def packetButtons (order : ByteOrder) (p : Packet) : Half :=
  match order with
  | .little => p.btn8 ++ p.btn7
  | .big => p.btn7 ++ p.btn8

/-- The projection of a packet (43 R104): every field copied bit for bit, with no range check. -/
def packetCS (c : Config) (p : Packet) : CS :=
  { s0x := p.s0x, s0y := p.s0y, s1x := p.s1x, s1y := p.s1y, t0 := p.t0, t1 := p.t1,
    btn := packetButtons c.btnByteOrder p, dpad := p.dpad }

/-- The six fields of an analog message over `old` (40 R71). `p[6]` and `p[7]` are not read. -/
def analogCS (p : Payload) (old : CS) : CS :=
  { old with s0x := p.p0, s0y := p.p1, s1x := p.p2, s1y := p.p3, t0 := p.p4, t1 := p.p5 }

/-- The two fields of a button message over `old` (40 R72). -/
def buttonCS (c : Config) (p : Payload) (old : CS) : CS :=
  { old with btn := busButtons c p old.btn, dpad := busDirCode c p }

end Sys2Proof.Machine
end

