-- ==== Sys2Proof/Machine/State.lean ====
section
/-! DEFINITION. The state of the machine (10_state R10), the reasons a step can stop, and the state after reset
(10_state R26). -/

namespace Sys2Proof.Machine

/-- The accumulation buffer `buf` together with its fill count `len`: the list of its valid bytes in arrival order,
index 0 first (10_state R19, R20). Positions at or beyond `len` are not architectural state (R19, D15). -/
abbrev Memory := List Byte

/-- What an operation answers to its caller (00_scope R8, 44 R110). -/
inductive Response where
  /-- `frame_decoded`, the result of PUSH and PUSHN (41 R80, R84). -/
  | frameDecoded (b : Bool)
  /-- `decoded`, the result of BUSMSG (40 R70). -/
  | decoded (b : Bool)
  /-- The result of Q.BUTTON: `true` is pressed (44 R111). -/
  | pressed (b : Bool)
  /-- The result of Q.DPAD, 8 bits (44 R112). -/
  | code (v : Byte)
  /-- The result of Q.RAW on an 8-bit field (44 R113). -/
  | raw8 (v : Byte)
  /-- The result of Q.RAW on `BTN`, 16 bits (44 R113). -/
  | raw16 (v : Half)
deriving DecidableEq, Repr

/-- Everything the machine holds. `cs` and `buf` are the block's whole architectural state (10_state R10). `cfg` is
the block's build-time parameters (00_scope R5), which no operation writes (log entry 1). `pending` and `results` are
the caller's side: the operations it will still issue and the answers it has got (log entries 16 and 17); no operation
reads `results`. -/
structure State where
  /-- `CS`, the canonical state register, eight fields, 72 bits (10_state R11). -/
  cs : CS
  /-- `BUF` with `len = buf.length` (10_state R19, R20). -/
  buf : Memory
  /-- The parameters of 00_scope R5. The MODEL's field. -/
  cfg : Config
  /-- The operations the caller will still issue, the next one first (20_memory R40). The MODEL's field. -/
  pending : List Request
  /-- The answers given so far, the oldest first (70 R154). The MODEL's field. -/
  results : List Response
deriving DecidableEq, Repr

/-- Why the machine stops with a fault: never. "there is no input that makes the block fault, hang, block or enter a
state from which it cannot continue" (00_scope R9; 60 R120). A type without a constructor says so (log entry 20). -/
inductive Fault where
deriving DecidableEq, Repr

/-- Why a step has no meaning. Every one is safe: the machine stops where the spec gives no operation. -/
inductive Refusal where
  /-- Raised by `exec` for an instruction of the opcode table that has no meaning yet. Safe. -/
  | notModelled (mnemonic : String)
  /-- Raised by `step` when the caller's request is no operation of the block: a payload that is not eight bytes, an
  identifier wider than `ID_WIDTH`, a button index above 15 (44 R111, U9, U16). Safe. -/
  | rejected (why : Reject)
  /-- Raised by `exec` for a term that is not well formed: PUSH.DATA of the delimiter, BUS.IGNORE of a recognised or
  too wide identifier (30_encoding R51, R55). The decoder never reads such a term. Safe. -/
  | illFormed
  /-- Raised by the three BUS operations when the block is built without the BUS unit: the entry point does not exist
  (40 R76). Safe. -/
  | noBusPort
deriving DecidableEq, Repr

/-- The fill count `len` (10_state R20). -/
def State.len (s : State) : Nat :=
  s.buf.length

/-- The canonical form of the buffer between operations: at most `BUF_MAX` bytes (20_memory R45), none of them the
delimiter (10_state R21). -/
def Memory.wf (bufMax : Nat) (m : Memory) : Bool :=
  decide (m.length ≤ bufMax) && m.all (fun b => decide (b ≠ delim))

/-- The machine after PRESET under the default configuration (10_state R26, 70 R141), with nothing yet asked of it.
`cs` is the DESIGN CHOICE of D10 (log entry 12). -/
def State.reset : State :=
  { cs := CS.neutral
    buf := []
    cfg := Config.standard
    pending := []
    results := [] }

end Sys2Proof.Machine
end

