-- ==== Sys2Proof/Machine/Ops.lean ====
section
/-! DEFINITION. The named operations over the buffer, the canonical state register and the caller's answers
(00_scope R7), the silent drop (60 R121), and the PUSH of one byte and of a sequence (41 R80 to R84), over which the
meanings are written. An operation that answers a boolean is a function to the next state and that boolean. -/

namespace Sys2Proof.Machine

/-- `MemRead(BUF, i, 1)` (00_scope R7): defined for `i < len` only. -/
def State.bufRead (s : State) (i : Nat) : Option Byte :=
  s.buf[i]?

/-- `MemWrite(BUF, len, 1, b); len <- len + 1`: BUF is written only at index `len` (20_memory R36). -/
def State.append (s : State) (b : Byte) : State :=
  { s with buf := s.buf ++ [b] }

/-- `len <- 0`: what clearing the buffer means (10_state R19, D15). -/
def State.clear (s : State) : State :=
  { s with buf := [] }

/-- `CS <- v`: one indivisible update (20_memory R37). -/
def State.writeCS (s : State) (v : CS) : State :=
  { s with cs := v }

/-- The operation ends with this answer (00_scope R7 `return`, R8). -/
def State.respond (s : State) (r : Response) : State :=
  { s with results := s.results ++ [r] }

/-- `raise Drop(cause)` (60 R121), the block's only exception: the buffer is cleared, `CS` is not written, the cause is
discarded and the operation answers `false`. Nothing is saved, and there is no return from it (R125). -/
def raiseDrop (_cause : Cause) (s : State) : State × Bool :=
  (s.clear, false)

/-- What a delimiter finds in the buffer (41 R82): the packet of a valid frame, or the first cause against it in the
order of 60 R124. The unit is the buffer's bytes and then the delimiter, with no capacity test (D14). -/
def frameVerdict (c : Config) (buf : Memory) : Except Cause Packet :=
  if buf = [] then .error .noneEmpty
  else
    match escDecode c (buf ++ [delim]) with
    | none => .error .decode
    | some pkt => decodePacket c pkt

/-- PKT.UPDATE's write (43 R104): all eight fields in one update. -/
def State.project (s : State) (p : Packet) : State :=
  s.writeCS (packetCS s.cfg p)

/-- PUSH.DELIM (41 R82). The buffer is cleared on every path, and only a valid frame writes `CS`. -/
def pushDelim (s : State) : State × Bool :=
  match frameVerdict s.cfg s.buf with
  | .error cause => raiseDrop cause s
  | .ok p => (s.clear.project p, true)

/-- PUSH.DATA (41 R81): append when there is room, drop the buffer and the byte when there is none. -/
def pushData (b : Byte) (s : State) : State × Bool :=
  if s.len < s.cfg.bufMax then (s.append b, false) else raiseDrop .overflow s

/-- PUSH of one byte (41 R80). -/
def pushByte (b : Byte) (s : State) : State × Bool :=
  if b = delim then pushDelim s else pushData b s

/-- PUSHN's loop (41 R84): every byte is pushed in order, and the answers are or-ed. -/
def pushBytes : List Byte → State → State × Bool
  | [], s => (s, false)
  | b :: rest, s =>
    let one := pushByte b s
    let more := pushBytes rest one.1
    (more.1, one.2 || more.2)

/-- A PUSH or PUSHN ends: its boolean is answered (41 R80, R84). -/
def answerFrame (r : State × Bool) : State :=
  r.1.respond (.frameDecoded r.2)

/-- A bus operation on a block that has the BUS unit; without it the entry point does not exist (40 R76). -/
def withBusPort (s : State) (after : State) : Host.Outcome State Fault Refusal :=
  if s.cfg.hasBusPort then .next after else .refused .noBusPort

/-- The stored bits of a field of `CS` (44 R113). -/
def rawField (v : CS) : CsField → Response
  | .s0x => .raw8 v.s0x
  | .s0y => .raw8 v.s0y
  | .s1x => .raw8 v.s1x
  | .s1y => .raw8 v.s1y
  | .t0 => .raw8 v.t0
  | .t1 => .raw8 v.t1
  | .btn => .raw16 v.btn
  | .dpad => .raw8 v.dpad

end Sys2Proof.Machine
end

