-- ==== Sys2Proof/Machine/Bus.lean ====
section
/-! DEFINITION. The bus frame decoder (spec/40_bus_frame_decoder.md): BUS.ANALOG, BUS.BUTTON, BUS.IGNORE. None of them
reads or writes the buffer (R70). -/

namespace Sys2Proof.Machine

/-- `BUS.ANALOG(p)` (40 R71). -/
def execBusAnalog (p : Payload) (s : State) : Host.Outcome State Fault Refusal :=
  withBusPort s ((s.writeCS (analogCS p s.cs)).respond (.decoded true))

/-- `BUS.BUTTON(p)` (40 R72). -/
def execBusButton (p : Payload) (s : State) : Host.Outcome State Fault Refusal :=
  withBusPort s ((s.writeCS (buttonCS s.cfg p s.cs)).respond (.decoded true))

/-- `BUS.IGNORE` (40 R73), of an identifier of `ID_WIDTH` bits that is not recognised: nothing is touched and the
payload is not read. -/
def execBusIgnore (id : Nat) (p : Payload) (s : State) : Host.Outcome State Fault Refusal :=
  if (Instr.busIgnore id p).wf s.cfg then withBusPort s (s.respond (.decoded false))
  else .refused .illFormed

end Sys2Proof.Machine
end

