-- ==== Sys2Proof/Machine/Framer.lean ====
section
/-! DEFINITION. The stream framing state machine (spec/41_stream_framer.md): PUSH.DELIM, PUSH.DATA, PUSHN, FRESET. -/

namespace Sys2Proof.Machine

/-- `PUSH.DELIM` (41 R82). -/
def execPushDelim (s : State) : Host.Outcome State Fault Refusal :=
  .next (answerFrame (pushDelim s))

/-- `PUSH.DATA(b)` (41 R81), whose precondition is `b != 00`. -/
def execPushData (b : Byte) (s : State) : Host.Outcome State Fault Refusal :=
  if b = delim then .refused .illFormed else .next (answerFrame (pushData b s))

/-- `PUSHN(seq)` (41 R84): one answer for the whole batch. -/
def execPushN (seq : List Byte) (s : State) : Host.Outcome State Fault Refusal :=
  .next (answerFrame (pushBytes seq s))

/-- `FRESET` (41 R85): the buffer is cleared, `CS` is kept, nothing is answered. -/
def execFReset (s : State) : Host.Outcome State Fault Refusal :=
  .next s.clear

end Sys2Proof.Machine
end

