-- ==== Sys2Proof/Machine/Packet.lean ====
section
/-! DEFINITION. The projection of a valid packet (spec/43_packet_validation.md): PKT.UPDATE. The three checks before
it are `decodePacket` in Sys2Proof/Decode.lean. -/

namespace Sys2Proof.Machine

/-- `PKT.UPDATE(pkt)` (43 R104): all eight fields are written. It answers nothing of its own: it makes the enclosing
PUSH.DELIM answer `true`. -/
def execPktUpdate (p : Packet) (s : State) : Host.Outcome State Fault Refusal :=
  .next (s.project p)

end Sys2Proof.Machine
end

