-- ==== Sys2Proof/Machine/Query.lean ====
section
/-! DEFINITION. The read-only queries (spec/44_state_queries.md): Q.BUTTON, Q.DPAD, Q.RAW. A query writes nothing of
the block (R110, R114). -/

namespace Sys2Proof.Machine

/-- `Q.BUTTON(i)` (44 R111). -/
def execQButton (i : Fin 16) (s : State) : Host.Outcome State Fault Refusal :=
  .next (s.respond (.pressed (s.cs.btn.getLsbD i)))

/-- `Q.DPAD` (44 R112): the code as stored. -/
def execQDpad (s : State) : Host.Outcome State Fault Refusal :=
  .next (s.respond (.code s.cs.dpad))

/-- `Q.RAW(f)` (44 R113). -/
def execQRaw (f : CsField) (s : State) : Host.Outcome State Fault Refusal :=
  .next (s.respond (rawField s.cs f))

end Sys2Proof.Machine
end

