-- ==== Sys2Proof/Machine/Reset.lean ====
section
/-! DEFINITION. The power-on reset (spec/70_reset_and_hazards.md R141): PRESET. -/

namespace Sys2Proof.Machine

/-- `PRESET` (70 R141): the buffer is cleared, `CS` takes the parameter `CS_RESET`, nothing is answered. -/
def execPReset (s : State) : Host.Outcome State Fault Refusal :=
  .next (s.clear.writeCS s.cfg.csReset)

end Sys2Proof.Machine
end

