-- ==== Sys2Proof/Machine/Dispatch.lean ====
section
/-! DEFINITION. One arm per row of spec/opcode_table.json, each one call of its meaning. -/

namespace Sys2Proof.Machine

def exec (i : Instr) (s : State) : Host.Outcome State Fault Refusal :=
  match i with
  | .pushDelim => Sys2Proof.Machine.execPushDelim s
  | .pushData b => Sys2Proof.Machine.execPushData b s
  | .pushN seq => Sys2Proof.Machine.execPushN seq s
  | .fReset => Sys2Proof.Machine.execFReset s
  | .pktUpdate pkt => Sys2Proof.Machine.execPktUpdate pkt s
  | .busAnalog p => Sys2Proof.Machine.execBusAnalog p s
  | .busButton p => Sys2Proof.Machine.execBusButton p s
  | .busIgnore id p => Sys2Proof.Machine.execBusIgnore id p s
  | .qButton n => Sys2Proof.Machine.execQButton n s
  | .qDpad => Sys2Proof.Machine.execQDpad s
  | .qRaw f => Sys2Proof.Machine.execQRaw f s
  | .pReset => Sys2Proof.Machine.execPReset s

end Sys2Proof.Machine
end

