-- ==== Sys2Proof/Machine/Step.lean ====
section
/-! DEFINITION. One step: the caller issues its next operation, and the block runs it (00_scope R4, 20_memory R40).
With none pending the block is idle and keeps its state (60 R132, 70 R154; log entry 17). -/

namespace Sys2Proof.Machine

/-- The step function. A request that is no operation of the block is refused by name (44 R111, U9, U16). -/
def step (s : State) : Host.Outcome State Fault Refusal :=
  match s.pending with
  | [] => .next s
  | r :: rest =>
    match decodeRequest s.cfg r with
    | .ok i => exec i { s with pending := rest }
    | .error why => .refused (.rejected why)

/-- The state whose next step runs the operation a table word stands for. A caller's request is put before the pending
ones. A packet is what PUSH.DELIM projects, and no entry point of its own (43 R104), so the buffer holds its encoded
frame and the next request is the delimiter. Bits that stand for no operation are no request (log entry 18). -/
def State.withFetchWord (s : State) (nbits w : Nat) : State :=
  match encodedOfWord s.cfg nbits w with
  | some (.request r) => { s with pending := r :: s.pending }
  | some (.packet bytes) => { s with buf := escEncode s.cfg bytes, pending := .push delim :: s.pending }
  | none => s

end Sys2Proof.Machine
end

