-- ==== Sys2Proof/Safety.lean ====
section
/-! DEFINITION. The terms that claims about runs use: the invariant between operations, the cause an operation would
drop with, which requests a run may hold, and what a run from a state yields. -/

namespace Sys2Proof.Machine

/-- The invariant between operations: the parameters are admissible (00_scope R5), the buffer holds at most `BUF_MAX`
bytes (20_memory R45) and none of them is the delimiter (10_state R21). -/
def State.Inv (s : State) : Prop :=
  s.cfg.admissible = true ∧ Memory.wf s.cfg.bufMax s.buf = true

/-- A stored direction code is one of the nine defined ones (10_state R16). -/
def directionDefined (c : Config) (v : CS) : Prop :=
  v.dpad ∈ c.dpadCode.toList

/-- The operations of the BUS unit, which exist only where it is built in (40 R76). -/
def isBusOperation : Instr → Bool
  | .busAnalog _ => true
  | .busButton _ => true
  | .busIgnore _ _ => true
  | _ => false

/-- The queries (44 R110). -/
def isQuery : Instr → Bool
  | .qButton _ => true
  | .qDpad => true
  | .qRaw _ => true
  | _ => false

/-- The operations that carry stream bytes (41 R80, R84). -/
def isPush : Instr → Bool
  | .pushDelim => true
  | .pushData _ => true
  | .pushN _ => true
  | _ => false

/-- The cause of 60 R122 that an operation meets in a state, for the reader of a claim: the machine keeps none. A
PUSHN has the causes of its PUSH operations and none of its own. -/
def dropCause (i : Instr) (s : State) : Option Cause :=
  match i with
  | .pushDelim =>
    match frameVerdict s.cfg s.buf with
    | .error cause => some cause
    | .ok _ => none
  | .pushData _ => if s.len < s.cfg.bufMax then none else some .overflow
  | .busIgnore _ _ => some .unknownId
  | _ => none

/-- A decoded sequence is a well-formed packet: it has exactly 11 bytes, its header is the sentinel, and its stored
checksum is the recomputed one (43 R100 to R102). -/
def wellFormedPacket (c : Config) (pkt : List Byte) : Prop :=
  pkt.length = 11 ∧ pkt[0]? = some c.header ∧ pkt[10]? = some (xor8 (pkt.take 10))

/-- What the bytes of a packet say the fields of `CS` are, offset by offset (30_encoding R53, 43 R104). -/
def projectionOf (c : Config) (pkt : List Byte) : CS :=
  { s0x := pkt.getD 1 0
    s0y := pkt.getD 2 0
    s1x := pkt.getD 3 0
    s1y := pkt.getD 4 0
    t0 := pkt.getD 5 0
    t1 := pkt.getD 6 0
    btn :=
      match c.btnByteOrder with
      | .little => pkt.getD 8 0 ++ pkt.getD 7 0
      | .big => pkt.getD 7 0 ++ pkt.getD 8 0
    dpad := pkt.getD 9 0 }

/-- The packets of the valid frames that a sequence of stream bytes completes, in order, when the buffer holds `buf`
before it: data bytes gather in the buffer or overflow it (41 R81), and each delimiter takes what has gathered (41 R82). -/
def acceptedPackets (c : Config) : Memory → List Byte → List Packet
  | _, [] => []
  | buf, b :: rest =>
    if b = delim then
      match frameVerdict c buf with
      | .ok p => p :: acceptedPackets c [] rest
      | .error _ => acceptedPackets c [] rest
    else if buf.length < c.bufMax then acceptedPackets c (buf ++ [b]) rest
    else acceptedPackets c [] rest

/-- The packets that an operation accepts in a state: of a delimiter that of the frame it ends, of a batch all of its
frames' (41 R82, R84), and of PKT.UPDATE its own (43 R104). -/
def acceptedBy (i : Instr) (s : State) : List Packet :=
  match i with
  | .pushDelim => acceptedPackets s.cfg s.buf [delim]
  | .pushN seq => acceptedPackets s.cfg s.buf seq
  | .pktUpdate p => [p]
  | _ => []

/-- `OnChain e j`: the encoded bytes `e` have a code byte of the default coding at index `j` (42 R92, R94 item 1). The
first byte is one, and each is the distance to the next. -/
inductive OnChain (e : List Byte) : Nat → Prop where
  | first : e ≠ [] → OnChain e 0
  | next {j : Nat} {c : Byte} : OnChain e j → e[j]? = some c → j + c.toNat < e.length → OnChain e (j + c.toNat)

/-- A safe run of `n` steps: it ends in a state, so that no step of it was refused. -/
def RunsTo (n : Nat) (s t : State) : Prop :=
  Host.Core.run Sys2Proof.core n s = .next t

/-- The requests that a run of a block may hold: each is an operation, and a bus operation only where the BUS unit is
built in. -/
def Acceptable (c : Config) (rs : List Request) : Prop :=
  ∀ r ∈ rs, ∃ i, decodeRequest c r = .ok i ∧ (isBusOperation i = true → c.hasBusPort = true)

end Sys2Proof.Machine
end

