-- ==== Sys2Proof/Certificates/Slice0/Obligations.lean ====
section
/-! DEFINITION. The statements for the provers, in the order of OBLIGATIONS.json. A statement over every state is a
statement over every configuration of 00_scope R5, since the state carries the parameters. -/

open Sys2Proof Sys2Proof.Machine

/-! ### The machine -/

/-- A step runs the operation that the next pending request decodes to, with that request taken from the script
(00_scope R4, 20_memory R40). The script is the model's own form of the caller (log entry 17). -/
def Obligations.StepRunsDecodedOperation : Prop :=
  ∀ (s : State) (r : Request) (rest : List Request) (i : Instr),
    s.pending = r :: rest → decodeRequest s.cfg r = .ok i →
      step s = exec i { s with pending := rest }

/-- With no operation issued the block is idle (60 R132). That an idle step answers the same state is the model's
choice (log entry 17). -/
def Obligations.StepIdlesWithoutRequest : Prop :=
  ∀ s : State, s.pending = [] → step s = .next s

/-- What is no operation of the block is refused by name: a payload that is not eight bytes (30_encoding R55, U16 of
93_implementation_defined), an identifier wider than `ID_WIDTH`, a button index above 15 (44 R111, U9). The refusals are
the model's choice (log entry 19): no rule says what becomes of such a request, and R55 gives only the widths. -/
def Obligations.StepRefusesNonOperations : Prop :=
  ∀ (s : State) (rest : List Request),
    (∀ id payload, s.pending = .busMsg id payload :: rest → payload.length ≠ 8 →
      step s = .refused (.rejected .payloadLength)) ∧
    (∀ id payload, s.pending = .busMsg id payload :: rest → payload.length = 8 → 2 ^ s.cfg.idWidth ≤ id →
      step s = .refused (.rejected .idTooWide)) ∧
    (∀ i, s.pending = .qButton i :: rest → 16 ≤ i → step s = .refused (.rejected .buttonIndex))

/-- A step never writes a parameter (70 R143). Of the model's own fields it takes at most the first pending request,
since operations are issued one at a time (20_memory R40, log entry 17), and it adds at most one answer after the earlier
ones (log entry 16). -/
def Obligations.StepKeepsParameters : Prop :=
  ∀ s t : State, step s = .next t →
    t.cfg = s.cfg ∧ t.pending = s.pending.tail ∧ ∃ rs, rs.length ≤ 1 ∧ t.results = s.results ++ rs

/-- The state after reset. The neutral snapshot and the empty buffer are the spec's own decision D10 (log entry 12). Of
the parameters, `BUF_MAX` 16 and `ID_WIDTH` 11 are the model's choice, since 00_scope R5 leaves them open (log entry 2);
the others are the spec's decided defaults (log entries 3 to 7 and 10 to 13). That nothing is pending and nothing was
answered is the model's own (log entries 16 and 17). -/
def Obligations.ResetState : Prop :=
  State.reset.len = 0 ∧ State.reset.buf = [] ∧
    State.reset.cs = { s0x := 0, s0y := 0, s1x := 0, s1y := 0, t0 := 0, t1 := 0, btn := 0, dpad := 0 } ∧
    State.reset.cfg =
      { bufMax := 16, header := 0xAA, btnByteOrder := .little,
        dpadCode := { c := 0, u := 1, ur := 2, r := 3, dr := 4, d := 5, dl := 6, l := 7, ul := 8 },
        btnBit := { facePrimary := 0, faceSecondary := 1, faceTertiary := 2, faceQuaternary := 3,
                    aux0 := 4, aux1 := 5, aux2 := 6, aux3 := 7, aux4 := 8, aux5 := 9 },
        esc := .cobs, analogId := 50, idWidth := 11, hasBusPort := true,
        csReset := { s0x := 0, s0y := 0, s1x := 0, s1y := 0, t0 := 0, t1 := 0, btn := 0, dpad := 0 },
        busBtnHi := .clear } ∧
    State.reset.pending = [] ∧ State.reset.results = []

/-- The invariant between operations holds at reset. -/
def Obligations.ResetMeetsInvariant : Prop :=
  State.reset.Inv

/-- Every step from every state that meets the invariant gives a state that meets it: the buffer never exceeds
`BUF_MAX` (20_memory R45), never holds the delimiter (10_state R21), and the parameters stay admissible (70 R143). -/
def Obligations.StepKeepsInvariant : Prop :=
  ∀ s t : State, s.Inv → step s = .next t → t.Inv

/-- Every well-formed operation completes in every state, where the bus operations exist (00_scope R9). -/
def Obligations.EveryOperationCompletes : Prop :=
  ∀ (s : State) (i : Instr), i.wf s.cfg = true → (isBusOperation i = true → s.cfg.hasBusPort = true) →
    ∃ t, exec i s = .next t

/-- A run of operations never stops, however long it is, and every state on it meets the invariant (00_scope R9, 70
R154). -/
def Obligations.AcceptableRunsNeverStop : Prop :=
  ∀ s : State, s.Inv → Acceptable s.cfg s.pending → ∀ n, ∃ t, RunsTo n s t ∧ t.Inv

/-- A term that is no operation is refused: PUSH.DATA of the delimiter, and BUS.IGNORE of a recognised or too wide
identifier. That exec refuses such terms is the model's choice (log entry 19). -/
def Obligations.IllFormedTermsAreRefused : Prop :=
  ∀ s : State, exec (.pushData 0) s = .refused .illFormed ∧
    ∀ id p, (2 ^ s.cfg.idWidth ≤ id ∨ id = s.cfg.analogId ∨ id = 51) →
      exec (.busIgnore id p) s = .refused .illFormed

/-- On a block without the BUS unit the bus operations are refused by name (40 R76, D2; log entry 11). -/
def Obligations.BusAbsentIsRefused : Prop :=
  ∀ (s : State) (id : Nat) (p : Payload), s.cfg.hasBusPort = false →
    exec (.busAnalog p) s = .refused .noBusPort ∧ exec (.busButton p) s = .refused .noBusPort ∧
      (id < 2 ^ s.cfg.idWidth → id ≠ s.cfg.analogId → id ≠ 51 →
        exec (.busIgnore id p) s = .refused .noBusPort)

/-! ### Decoding and encoding -/

/-- Decoding the written form of a well-formed operation gives the operation back, every operand at every value
(30_encoding R51, R53, R55, R61). -/
def Obligations.DecodeOfEncode : Prop :=
  ∀ (c : Config) (i : Instr), c.admissible = true → i.wf c = true → decode c (encode c i) = .ok i

/-- No two written forms stand for one operation. -/
def Obligations.EncodeOfDecode : Prop :=
  ∀ (c : Config) (e : Encoded) (i : Instr), decode c e = .ok i → encode c i = e

/-- What the decoder reads is well formed. -/
def Obligations.DecodedIsWellFormed : Prop :=
  ∀ (c : Config) (e : Encoded) (i : Instr), decode c e = .ok i → i.wf c = true

/-- A few words of spec/opcode_table.json: the delimiter, a data byte, the packet A of spec/95_test_vectors.md, its
corrupted form, and the three bus messages of 40 R71 to R73. The bytes are the spec's; that a packet's word has them in
this order, where a bus message has its identifier and its payload in the word, and the bits' numbering, are the model's
choice (log entry 18, left open by 20_memory R38), and so is the identifier's width of 11 bits (log entry 2). The
header byte 0xAA and the identifier 50 are the decided defaults D5 and D9 (log entries 3 and 10). -/
def Obligations.SampleWordsDecode : Prop :=
  decodeTableWord 8 0x00 = some .pushDelim ∧
  decodeTableWord 8 0xAA = some (.pushData 0xAA) ∧
  decodeTableWord 88 0xD2040201FF007F00FA05AA =
    some (.pktUpdate { s0x := 0x05, s0y := 0xFA, s1x := 0x00, s1y := 0x7F, t0 := 0x00, t1 := 0xFF,
                       btn7 := 0x01, btn8 := 0x02, dpad := 0x04 }) ∧
  decodeTableWord 88 0xD3040201FF007F00FA05AA = none ∧
  decodeTableWord 80 (50 + 2 ^ 11 * 0xADDEFF007F80FA05) =
    some (.busAnalog { p0 := 0x05, p1 := 0xFA, p2 := 0x80, p3 := 0x7F, p4 := 0x00, p5 := 0xFF, p6 := 0xDE, p7 := 0xAD }) ∧
  decodeTableWord 80 (51 + 2 ^ 11 * 0x0000FF0001000509) =
    some (.busButton { p0 := 0x09, p1 := 0x05, p2 := 0x00, p3 := 0x01, p4 := 0x00, p5 := 0xFF, p6 := 0x00, p7 := 0x00 }) ∧
  decodeTableWord 80 (52 + 2 ^ 11 * 0x0101010101010101) =
    some (.busIgnore 52 { p0 := 1, p1 := 1, p2 := 1, p3 := 1, p4 := 1, p5 := 1, p6 := 1, p7 := 1 })

/-! ### Packets -/

/-- The checksum field of a packet (30_encoding R54): byte 10 of the one well-formed packet with given field bytes, and
byte 10 of every packet the decoder accepts, is the exclusive-or of the ten bytes from the header through the direction
code, the header included; and the rule's example. -/
def Obligations.ChecksumIsExclusiveOr : Prop :=
  (∀ (c : Config) (p : Packet), (encodePacket c p)[10]? =
    some (c.header ^^^ p.s0x ^^^ p.s0y ^^^ p.s1x ^^^ p.s1y ^^^ p.t0 ^^^ p.t1 ^^^ p.btn7 ^^^ p.btn8 ^^^ p.dpad)) ∧
  (∀ (c : Config) (b0 b1 b2 b3 b4 b5 b6 b7 b8 b9 chk : Byte) (p : Packet),
    decodePacket c [b0, b1, b2, b3, b4, b5, b6, b7, b8, b9, chk] = .ok p →
      chk = b0 ^^^ b1 ^^^ b2 ^^^ b3 ^^^ b4 ^^^ b5 ^^^ b6 ^^^ b7 ^^^ b8 ^^^ b9) ∧
  (∀ (c : Config) (b0 b1 b2 b3 b4 b5 b6 b7 b8 b9 chk : Byte), b0 = c.header →
    chk ≠ b0 ^^^ b1 ^^^ b2 ^^^ b3 ^^^ b4 ^^^ b5 ^^^ b6 ^^^ b7 ^^^ b8 ^^^ b9 →
      decodePacket c [b0, b1, b2, b3, b4, b5, b6, b7, b8, b9, chk] = .error .checksum) ∧
  (∀ (c : Config) (p : Packet) (chk : Byte),
    decodePacket c [0xAA, 0x05, 0xFA, 0x00, 0x7F, 0x00, 0xFF, 0x01, 0x02, 0x04, chk] = .ok p → chk = 0xD2)

/-- The equivalent form of the checksum check that 30_encoding R54 derives: a packet passes it exactly when the
exclusive-or of all its eleven bytes is zero. -/
def Obligations.ChecksumCheckIsZeroTest : Prop :=
  ∀ pkt : List Byte, pkt.length = 11 → (pkt[10]? = some (xor8 (pkt.take 10)) ↔ xor8 pkt = 0)

/-- The three checks of a terminated frame that escape-decodes (43 R100 to R102): the length, then the header, then the
checksum; the first that fails is the cause, and drops the frame; a packet that passes all three is accepted, whatever
its field values, and `CS` becomes its projection (41 R82, 43 R104). That header comes before checksum among the causes,
and the causes' names, are the spec's decision D18 (log entry 24), and that no field value is checked its decision D12
(log entry 14). -/
def Obligations.FrameChecks : Prop :=
  ∀ (s : State) (pkt : List Byte), s.buf ≠ [] → escDecode s.cfg (s.buf ++ [0]) = some pkt →
    (pkt.length ≠ 11 →
      frameVerdict s.cfg s.buf = .error .length ∧
        exec .pushDelim s = .next { s with buf := [], results := s.results ++ [.frameDecoded false] }) ∧
    (pkt.length = 11 → pkt[0]? ≠ some s.cfg.header →
      frameVerdict s.cfg s.buf = .error .header ∧
        exec .pushDelim s = .next { s with buf := [], results := s.results ++ [.frameDecoded false] }) ∧
    (pkt.length = 11 → pkt[0]? = some s.cfg.header → pkt[10]? ≠ some (xor8 (pkt.take 10)) →
      frameVerdict s.cfg s.buf = .error .checksum ∧
        exec .pushDelim s = .next { s with buf := [], results := s.results ++ [.frameDecoded false] }) ∧
    (wellFormedPacket s.cfg pkt →
      (∃ p, frameVerdict s.cfg s.buf = .ok p) ∧
        exec .pushDelim s = .next { s with buf := [], cs := projectionOf s.cfg pkt,
                                           results := s.results ++ [.frameDecoded true] })

/-- A change confined to one byte of a well-formed packet, by any difference, is detected (43 R103 item 1): at offset 0
by the header check, at any other offset by the checksum check. A change at offset 0 breaks both, and that the header
check comes first and names the cause is the spec's decision D18 (log entry 24). -/
def Obligations.SingleByteChangeIsDetected : Prop :=
  ∀ (c : Config) (pkt : List Byte) (p : Packet) (k : Nat) (b : Byte),
    decodePacket c pkt = .ok p → k < 11 → pkt[k]? ≠ some b →
      decodePacket c (pkt.set k b) = .error (if k = 0 then .header else .checksum)

/-- Changes among offsets 1 to 10 go undetected exactly when the exclusive-or of the differences is zero, the accepted
blind spot (43 R103 item 2). -/
def Obligations.CancellingChangesAreAccepted : Prop :=
  ∀ (c : Config) (pkt q : List Byte) (p : Packet),
    decodePacket c pkt = .ok p → q.length = 11 → q[0]? = pkt[0]? →
      ((∃ p', decodePacket c q = .ok p') ↔ xor8 (List.zipWith (· ^^^ ·) pkt q) = 0)

/-- Swapping two bytes among offsets 1 to 9 of a well-formed packet leaves it well formed (43 R103 item 3). -/
def Obligations.SwappedBytesAreAccepted : Prop :=
  ∀ (c : Config) (pkt : List Byte) (p : Packet) (j k : Nat),
    decodePacket c pkt = .ok p → 1 ≤ j → j ≤ 9 → 1 ≤ k → k ≤ 9 →
      ∃ p', decodePacket c ((pkt.set j (pkt.getD k 0)).set k (pkt.getD j 0)) = .ok p'

/-- For every value of `CS` there is exactly one well-formed packet that projects to it (43 R106). -/
def Obligations.OnePacketPerSnapshot : Prop :=
  ∀ (c : Config) (v : CS), ∃ pkt, (wellFormedPacket c pkt ∧ projectionOf c pkt = v) ∧
    ∀ q, wellFormedPacket c q → projectionOf c q = v → q = pkt

/-- PKT.UPDATE writes all eight fields, each bit for bit, and nothing else (43 R104; the bitmask's byte order is the
parameter of 20_memory R32). That the direction byte and bits 10 to 15 of the bitmask are copied at every value, with no
range check, is the spec's decision D12 (log entry 14); the order of the sticks and triggers and of the bitmask's bytes
are its decisions D13 and D6 (log entries 25 and 4). -/
def Obligations.PktUpdateProjects : Prop :=
  ∀ (s : State) (p : Packet), exec (.pktUpdate p) s =
    .next { s with cs := { s0x := p.s0x, s0y := p.s0y, s1x := p.s1x, s1y := p.s1y, t0 := p.t0, t1 := p.t1,
                           btn := if s.cfg.btnByteOrder = .little then p.btn8 ++ p.btn7 else p.btn7 ++ p.btn8,
                           dpad := p.dpad } }

/-! ### The framer -/

/-- PUSH.DATA appends the byte when there is room; otherwise the buffer and the byte are lost. It answers `false` and
changes nothing else (41 R81). That `BUF_MAX` counts the bytes that fit is the spec's decision D4 (log entry 2). -/
def Obligations.PushDataAppendsOrDrops : Prop :=
  ∀ (s : State) (b : Byte), b ≠ 0 →
    (s.buf.length < s.cfg.bufMax → exec (.pushData b) s =
      .next { s with buf := s.buf ++ [b], results := s.results ++ [.frameDecoded false] }) ∧
    (s.cfg.bufMax ≤ s.buf.length → exec (.pushData b) s =
      .next { s with buf := [], results := s.results ++ [.frameDecoded false] })

/-- PUSH.DELIM on every path: an empty buffer is no frame; a frame that decodes to a well-formed packet overwrites
`CS` and answers `true`; any other frame is dropped. The buffer is empty afterwards (41 R82). That the
delimiter needs no room, so that a full buffer is decoded too, is the spec's decision D14 (conflict C5, log entry 15). -/
def Obligations.PushDelimDecodesTheFrame : Prop :=
  ∀ s : State,
    (s.buf = [] → exec .pushDelim s = .next { s with results := s.results ++ [.frameDecoded false] }) ∧
    (∀ pkt, s.buf ≠ [] → escDecode s.cfg (s.buf ++ [0]) = some pkt → wellFormedPacket s.cfg pkt →
      exec .pushDelim s = .next { s with buf := [], cs := projectionOf s.cfg pkt,
                                         results := s.results ++ [.frameDecoded true] }) ∧
    (s.buf ≠ [] → (∀ pkt, escDecode s.cfg (s.buf ++ [0]) = some pkt → ¬ wellFormedPacket s.cfg pkt) →
      exec .pushDelim s = .next { s with buf := [], results := s.results ++ [.frameDecoded false] })

/-- PUSH.DELIM on a valid frame is PKT.UPDATE on the cleared buffer, answered with `true` (41 R82, 43 R104). -/
def Obligations.PushDelimRunsPktUpdate : Prop :=
  ∀ (s : State) (p : Packet), frameVerdict s.cfg s.buf = .ok p →
    ∃ u, exec (.pktUpdate p) { s with buf := [] } = .next u ∧
      exec .pushDelim s = .next { u with results := u.results ++ [.frameDecoded true] }

/-- PUSHN has exactly the effect of one PUSH per byte, in order, and answers the or of their answers (41 R84). That
the lossy answer is kept is the spec's decision D17 (log entry 27), and that the state effect is the byte-by-byte one is
its own inference. -/
def Obligations.PushNIsOnePushPerByte : Prop :=
  ∀ (s : State) (seq : List Byte), ∃ (t : State) (rs : List Bool),
    exec (.pushN seq) s = .next t ∧ rs.length = seq.length ∧
      t.results = s.results ++ [.frameDecoded (rs.any id)] ∧
      RunsTo seq.length { s with pending := seq.map Request.push ++ s.pending }
        { t with results := s.results ++ rs.map Response.frameDecoded }

/-- A batch of two frames, the first valid: `CS` ends with the last valid one, and the answer is a single `true`
whatever the second frame is (41 R84 corner cases 2 and 3, 70 R146; the spec's decision D17, log entry 27). -/
def Obligations.BatchKeepsLastValidFrame : Prop :=
  ∀ (s : State) (e₁ e₂ : List Byte) (p₁ : Packet),
    s.buf = [] → (∀ b ∈ e₁ ++ e₂, b ≠ 0) → e₁.length ≤ s.cfg.bufMax → e₂.length ≤ s.cfg.bufMax →
    frameVerdict s.cfg e₁ = .ok p₁ →
      (∀ p₂, frameVerdict s.cfg e₂ = .ok p₂ → exec (.pushN (e₁ ++ [0] ++ e₂ ++ [0])) s =
        .next { s with cs := packetCS s.cfg p₂, results := s.results ++ [.frameDecoded true] }) ∧
      (∀ k, frameVerdict s.cfg e₂ = .error k → exec (.pushN (e₁ ++ [0] ++ e₂ ++ [0])) s =
        .next { s with cs := packetCS s.cfg p₁, results := s.results ++ [.frameDecoded true] })

/-- FRESET clears the buffer and leaves everything else, and answers nothing (41 R85). -/
def Obligations.FResetClearsTheBuffer : Prop :=
  ∀ s : State, exec .fReset s = .next { s with buf := [] }

/-- The frame theorem (41 R86 law 3), for any escape coding: a frame of non-zero bytes that fits, pushed into an empty
buffer, is accepted exactly when it decodes to a well-formed packet, and then `CS` is the projection of that packet. -/
def Obligations.FrameTheorem : Prop :=
  ∀ (s : State) (e : List Byte),
    s.buf = [] → e ≠ [] → (∀ b ∈ e, b ≠ 0) → e.length ≤ s.cfg.bufMax →
      (∀ pkt, escDecode s.cfg (e ++ [0]) = some pkt → wellFormedPacket s.cfg pkt →
        exec (.pushN (e ++ [0])) s =
          .next { s with cs := projectionOf s.cfg pkt, results := s.results ++ [.frameDecoded true] }) ∧
      ((∀ pkt, escDecode s.cfg (e ++ [0]) = some pkt → ¬ wellFormedPacket s.cfg pkt) →
        exec (.pushN (e ++ [0])) s = .next { s with results := s.results ++ [.frameDecoded false] })

/-- The round trip (41 R86 law 4), byte by byte and for whatever coding is built in: where the encoded packet fits, each
PUSH of its bytes answers `false`, the delimiter's answers `true`, and `CS` is the projection of the packet. -/
def Obligations.RoundTripByteByByte : Prop :=
  ∀ (s : State) (p : Packet) (e : List Byte),
    e = escEncode s.cfg (encodePacket s.cfg p) → e.length ≤ s.cfg.bufMax → s.buf = [] →
      RunsTo (e.length + 1) { s with pending := (e ++ [0]).map Request.push ++ s.pending }
        { s with cs := projectionOf s.cfg (encodePacket s.cfg p),
                 results := s.results ++ List.replicate e.length (.frameDecoded false) ++ [.frameDecoded true] }

/-- Recovery (41 R87), for whatever coding is built in: whatever the buffer holds, a frame that fits and is preceded by a
delimiter is decoded. -/
def Obligations.DelimiterRestoresAlignment : Prop :=
  ∀ (s : State) (p : Packet) (e : List Byte),
    e = escEncode s.cfg (encodePacket s.cfg p) → e.length ≤ s.cfg.bufMax →
      exec (.pushN ([0] ++ e ++ [0])) s =
        .next { s with buf := [], cs := projectionOf s.cfg (encodePacket s.cfg p),
                       results := s.results ++ [.frameDecoded true] }

/-- After a delimiter the framer does not depend on anything before it (41 R86 law 2): two blocks of one configuration,
in any two states, answer alike and hold the same buffer ever after, and once a frame succeeds the same `CS`. -/
def Obligations.DelimiterForgetsThePast : Prop :=
  ∀ (s₁ s₂ : State) (seq : List Byte), s₁.cfg = s₂.cfg →
    ∃ t₁ t₂ u₁ u₂ r,
      exec .pushDelim s₁ = .next t₁ ∧ exec .pushDelim s₂ = .next t₂ ∧
      exec (.pushN seq) t₁ = .next u₁ ∧ exec (.pushN seq) t₂ = .next u₂ ∧
      u₁.results = t₁.results ++ [.frameDecoded r] ∧ u₂.results = t₂.results ++ [.frameDecoded r] ∧
      u₁.buf = u₂.buf ∧
      (r = true → u₁.cs = u₂.cs) ∧ (r = false → u₁.cs = t₁.cs ∧ u₂.cs = t₂.cs)

/-- Over-long input (41 R81 corner case 3, R86 law 5): from an empty buffer, non-zero bytes leave the last
`|e| mod (BUF_MAX + 1)` of them; `CS` is kept and the answer is `false`. -/
def Obligations.OverlongInputKeepsTail : Prop :=
  ∀ (s : State) (e : List Byte), s.buf = [] → (∀ b ∈ e, b ≠ 0) →
    exec (.pushN e) s =
      .next { s with buf := e.drop (e.length - e.length % (s.cfg.bufMax + 1)),
                     results := s.results ++ [.frameDecoded false] }

/-- After an overflow the framer accumulates at once (70 R148, conflict C4): a valid frame right after the overflowing
byte is accepted, with no delimiter between. -/
def Obligations.FrameAfterOverflowIsAccepted : Prop :=
  ∀ (s : State) (x : Byte) (e pkt : List Byte),
    s.buf.length = s.cfg.bufMax → x ≠ 0 → e ≠ [] → (∀ b ∈ e, b ≠ 0) → e.length ≤ s.cfg.bufMax →
    escDecode s.cfg (e ++ [0]) = some pkt → wellFormedPacket s.cfg pkt →
      exec (.pushN (x :: e ++ [0])) s =
        .next { s with buf := [], cs := projectionOf s.cfg pkt, results := s.results ++ [.frameDecoded true] }

/-- With the default coding a frame succeeds only when the buffer holds exactly twelve bytes at the delimiter
(42 R96), so never when `BUF_MAX` is smaller than twelve (41 R86 law 6). -/
def Obligations.SuccessNeedsTwelveBytes : Prop :=
  ∀ s : State, s.cfg.esc = .cobs →
    (s.buf.length ≠ 12 →
      exec .pushDelim s = .next { s with buf := [], results := s.results ++ [.frameDecoded false] }) ∧
    (s.cfg.bufMax < 12 → s.buf.length ≤ s.cfg.bufMax → ∀ seq, ∃ t, exec (.pushN seq) s = .next t ∧
      t.cs = s.cs ∧ t.results = s.results ++ [.frameDecoded false])

/-- Which fields of `CS` each operation writes (10_state R17): a writer replaces its fields, a delimiter that ends a
valid frame and a batch with a valid frame write all eight from that packet (of a batch, from the last accepted one), and
every other operation and every failed decode leaves all eight. That PRESET exists and what it writes is the spec's
decision D10 (log entry 12), that a batch keeps the last one its decision D17 (log entry 27), and which byte of an analog
payload is which axis or trigger its decision D13 (log entry 25). -/
def Obligations.CanonicalStateWriters : Prop :=
  ∀ (i : Instr) (s t : State), exec i s = .next t →
    match i with
    | .pushDelim =>
      (∀ p, frameVerdict s.cfg s.buf = .ok p →
        t.results = s.results ++ [.frameDecoded true] ∧ t.cs = packetCS s.cfg p) ∧
      (∀ k, frameVerdict s.cfg s.buf = .error k →
        t.results = s.results ++ [.frameDecoded false] ∧ t.cs = s.cs)
    | .pushData _ => t.cs = s.cs
    | .pushN seq =>
      (∀ p, (acceptedPackets s.cfg s.buf seq).getLast? = some p →
        t.results = s.results ++ [.frameDecoded true] ∧ t.cs = packetCS s.cfg p) ∧
      (acceptedPackets s.cfg s.buf seq = [] →
        t.results = s.results ++ [.frameDecoded false] ∧ t.cs = s.cs)
    | .fReset => t.cs = s.cs
    | .pktUpdate p => t.cs = packetCS s.cfg p
    | .busAnalog p => t.cs = { s.cs with s0x := p.p0, s0y := p.p1, s1x := p.p2, s1y := p.p3, t0 := p.p4, t1 := p.p5 }
    | .busButton _ => t.cs = { s.cs with btn := t.cs.btn, dpad := t.cs.dpad }
    | .busIgnore _ _ => t.cs = s.cs
    | .qButton _ => t.cs = s.cs
    | .qDpad => t.cs = s.cs
    | .qRaw _ => t.cs = s.cs
    | .pReset => t.cs = s.cfg.csReset

/-- The drop itself (60 R121): whatever the cause, the buffer is cleared, nothing is recorded, and the answer is
`false`. -/
def Obligations.DropDiscardsItsCause : Prop :=
  ∀ (cause : Cause) (s : State), raiseDrop cause s = ({ s with buf := [] }, false)

/-- The table of causes (60 R122): the condition of each cause, that no other operation has one, and the one effect an
operation has when it meets it. BUS.IGNORE is no drop and keeps the buffer. -/
def Obligations.CauseTable : Prop :=
  ∀ s : State,
    (dropCause .pushDelim s = some .noneEmpty ↔ s.buf = []) ∧
    (dropCause .pushDelim s = some .decode ↔ s.buf ≠ [] ∧ escDecode s.cfg (s.buf ++ [0]) = none) ∧
    (dropCause .pushDelim s = some .length ↔
      s.buf ≠ [] ∧ ∃ pkt, escDecode s.cfg (s.buf ++ [0]) = some pkt ∧ pkt.length ≠ 11) ∧
    (dropCause .pushDelim s = some .header ↔
      s.buf ≠ [] ∧ ∃ pkt, escDecode s.cfg (s.buf ++ [0]) = some pkt ∧ pkt.length = 11 ∧
        pkt[0]? ≠ some s.cfg.header) ∧
    (dropCause .pushDelim s = some .checksum ↔
      s.buf ≠ [] ∧ ∃ pkt, escDecode s.cfg (s.buf ++ [0]) = some pkt ∧ pkt.length = 11 ∧
        pkt[0]? = some s.cfg.header ∧ pkt[10]? ≠ some (xor8 (pkt.take 10))) ∧
    (∀ b, dropCause (.pushData b) s = some .overflow ↔ s.cfg.bufMax ≤ s.buf.length) ∧
    (∀ id p, dropCause (.busIgnore id p) s = some .unknownId) ∧
    (∀ i, isPush i = false → (∀ id p, i ≠ .busIgnore id p) → dropCause i s = none) ∧
    (∀ i cause t, dropCause i s = some cause → exec i s = .next t →
      t = { s with buf := if cause = .noneEmpty ∨ cause = .unknownId then s.buf else [],
                   results := s.results ++ [if cause = .unknownId then .decoded false else .frameDecoded false] })

/-- The PUSH operations do not read `CS` (10_state R27): over another `CS` they leave the same buffer and answer alike,
and write the same packet or nothing. -/
def Obligations.FramerDoesNotReadCanonicalState : Prop :=
  ∀ (i : Instr) (s t : State) (v : CS), isPush i = true → exec i s = .next t →
    ∃ u, exec i { s with cs := v } = .next u ∧ u.buf = t.buf ∧ u.results = t.results ∧
      (u.cs = t.cs ∨ (u.cs = v ∧ t.cs = s.cs))

/-! ### The escape coding -/

/-- The obligations of 42 R91 hold of whatever coding is built in: no encoding contains the delimiter, the unit of an
encoded packet decodes back, and no decoded sequence is longer than its unit. The default coding of R93 and R95 decodes
back at every length, and for data shorter than 254 bytes it adds one byte. What the default decoder makes of at most
254 non-zero bytes encodes to those bytes again, so that it takes nothing but encodings there. That the default is COBS is the spec's
decision D3 (log entry 7), the encoder beyond 254 bytes the model's (log entry 29), and that the other coding meets R91
is how the model takes it (log entry 8). -/
def Obligations.CobsRoundTrip : Prop :=
  (∀ c : Config, EscObligations (escEncode c) (escDecode c)) ∧
  (∀ p : List Byte, (∀ b ∈ cobsEncode p, b ≠ 0) ∧ cobsDecode (cobsEncode p ++ [0]) = some p ∧
    (p.length < 254 → (cobsEncode p).length = p.length + 1)) ∧
  ∀ e out : List Byte, e ≠ [] → e.length ≤ 254 → (∀ b ∈ e, b ≠ 0) → cobsDecode (e ++ [0]) = some out → cobsEncode out = e

/-- The decoded sequence is at least two bytes shorter than the unit (42 R94 item 3, with `m = |u| - 1`). -/
def Obligations.CobsNeverExpands : Prop :=
  ∀ u out : List Byte, 2 ≤ u.length → cobsDecode u = some out → out.length + 2 ≤ u.length

/-- The default decoder fails exactly when a code byte on the chain points past the encoded bytes, and every other unit
succeeds (42 R94 item 1): it is strict, which is the spec's decision D3 (log entry 7). Where no code byte 0xFF can
complete a block, that is in units of at most 255 bytes, what it gives is exactly two bytes shorter than the unit (R94
item 2). -/
def Obligations.CobsLengthLaw : Prop :=
  (∀ e : List Byte, e ≠ [] → (∀ b ∈ e, b ≠ 0) →
    (cobsDecode (e ++ [0]) = none ↔ ∃ j c, OnChain e j ∧ e[j]? = some c ∧ e.length < j + c.toNat)) ∧
  ∀ u out : List Byte, 2 ≤ u.length → u.length ≤ 255 → cobsDecode u = some out → out.length + 2 = u.length

/-! ### The bus frame decoder -/

/-- BUS.ANALOG writes the four stick axes and the two triggers, unscaled, answers `true` and changes nothing else;
`p[6]` and `p[7]` have no effect (40 R71). Which of the payload's bytes is which axis or trigger is the spec's decision
D13 (30_encoding R56, log entry 25). -/
def Obligations.BusAnalogWritesSixFields : Prop :=
  ∀ (s : State) (p : Payload), s.cfg.hasBusPort = true →
    exec (.busAnalog p) s =
      .next { s with cs := { s.cs with s0x := p.p0, s0y := p.p1, s1x := p.p2, s1y := p.p3, t0 := p.p4, t1 := p.p5 },
                     results := s.results ++ [.decoded true] }

/-- BUS.BUTTON writes the button register and the direction code, answers `true` and changes nothing else (40 R72).
Each named button has its bit, at the position of `BTN_BIT`; the bits no named button has are cleared or kept as
`BUS_BTN_HI` says, which is the spec's decision D11 (log entries 6 and 13). -/
def Obligations.BusButtonWritesButtonsAndDirection : Prop :=
  ∀ (s : State) (p : Payload), s.cfg.admissible = true → s.cfg.hasBusPort = true →
    ∃ b : Half,
      exec (.busButton p) s =
        .next { s with cs := { s.cs with btn := b, dpad := dirCode s.cfg.dpadCode (dpadRule
                                { down := p.p0.getLsbD 0, left := p.p0.getLsbD 1,
                                  up := p.p0.getLsbD 2, right := p.p0.getLsbD 3 }) },
                       results := s.results ++ [.decoded true] } ∧
      b.getLsbD s.cfg.btnBit.facePrimary = p.p1.getLsbD 0 ∧
      b.getLsbD s.cfg.btnBit.faceSecondary = p.p1.getLsbD 1 ∧
      b.getLsbD s.cfg.btnBit.faceTertiary = p.p1.getLsbD 2 ∧
      b.getLsbD s.cfg.btnBit.faceQuaternary = p.p1.getLsbD 3 ∧
      b.getLsbD s.cfg.btnBit.aux0 = decide (p.p2 ≠ 0) ∧
      b.getLsbD s.cfg.btnBit.aux1 = decide (p.p3 ≠ 0) ∧
      b.getLsbD s.cfg.btnBit.aux2 = decide (p.p4 ≠ 0) ∧
      b.getLsbD s.cfg.btnBit.aux3 = decide (p.p5 ≠ 0) ∧
      b.getLsbD s.cfg.btnBit.aux4 = decide (p.p6 ≠ 0) ∧
      b.getLsbD s.cfg.btnBit.aux5 = decide (p.p7 ≠ 0) ∧
      ∀ i : Fin 16, i ∉ s.cfg.btnBit.toList →
        b.getLsbD i = (decide (s.cfg.busBtnHi = .preserve) && s.cs.btn.getLsbD i)

/-- BUS.IGNORE touches no field and answers `false` (40 R73). -/
def Obligations.BusIgnoreTouchesNothing : Prop :=
  ∀ (s : State) (id : Nat) (p : Payload), s.cfg.hasBusPort = true →
    id < 2 ^ s.cfg.idWidth → id ≠ s.cfg.analogId → id ≠ 51 →
      exec (.busIgnore id p) s = .next { s with results := s.results ++ [.decoded false] }

/-- The D-Pad Encoding Rule on all sixteen flag combinations, the flags in the order of the low nibble of `p[0]`:
diagonals first, the first match wins (40 R74). -/
def Obligations.DpadRuleTable : Prop :=
  (List.range 16).map (fun n => dpadRule (dirFlags (BitVec.ofNat 8 n))) =
    [.c, .d, .l, .dl, .u, .u, .ul, .dl, .r, .dr, .r, .dr, .ur, .ur, .ur, .ur]

/-- BUS.BUTTON always leaves one of the nine defined codes (10_state R16 (b)). -/
def Obligations.BusButtonDirectionIsDefined : Prop :=
  ∀ (s : State) (p : Payload), s.cfg.hasBusPort = true →
    ∃ t, exec (.busButton p) s = .next t ∧ directionDefined s.cfg t.cs

/-- The direction invariant and its limit (10_state R16): an operation keeps the direction code defined unless it
accepts a packet with a reserved one. An operation that accepts packets, alone or in a batch, leaves the code defined
exactly when the last packet's code is, and BUS.BUTTON leaves it defined whatever it was. That PRESET leaves it defined
asks this of the parameter `CS_RESET` (D10, log entry 12). That a packet with a reserved code is accepted and stored is
the spec's decision D12 (conflict C3, log entry 14), and that a batch's last packet decides its decision D17 (log entry
27). -/
def Obligations.DirectionInvariantAndItsLimit : Prop :=
  ∀ (i : Instr) (s t : State), exec i s = .next t → (i = .pReset → directionDefined s.cfg s.cfg.csReset) →
    ((∀ p ∈ acceptedBy i s, p.dpad ∈ s.cfg.dpadCode.toList) →
      directionDefined s.cfg s.cs → directionDefined s.cfg t.cs) ∧
    (∀ p, (acceptedBy i s).getLast? = some p →
      (directionDefined s.cfg t.cs ↔ p.dpad ∈ s.cfg.dpadCode.toList)) ∧
    (∀ q, i = .busButton q → directionDefined s.cfg t.cs)

/-- Decoding a bus message is idempotent (40 R75 law 1): applied twice it leaves the state and gives the answer of one
application, but for the second answer itself. -/
def Obligations.BusMessageIsIdempotent : Prop :=
  ∀ (i : Instr) (s t : State), isBusOperation i = true → exec i s = .next t →
    ∃ r, t.results = s.results ++ [r] ∧ exec i t = .next { t with results := t.results ++ [r] }

/-- An analog and a button message commute (40 R75 law 2). -/
def Obligations.BusMessagesCommute : Prop :=
  ∀ (s : State) (p q : Payload), s.cfg.hasBusPort = true →
    ∃ t₁ t₂ u, exec (.busAnalog p) s = .next t₁ ∧ exec (.busButton q) t₁ = .next u ∧
      exec (.busButton q) s = .next t₂ ∧ exec (.busAnalog p) t₂ = .next u

/-- A bus operation neither reads nor writes the framer (40 R70, R75 law 3, 10_state R27). -/
def Obligations.BusIsIndependentOfFramer : Prop :=
  ∀ (i : Instr) (s t : State), isBusOperation i = true → exec i s = .next t →
    t.buf = s.buf ∧ ∀ m : Memory, exec i { s with buf := m } = .next { t with buf := m }

/-- The last writer wins (40 R75 law 4): a packet leaves no trace of an earlier bus message. -/
def Obligations.PacketOverwritesBusMessages : Prop :=
  ∀ (i : Instr) (s t : State) (p : Packet), isBusOperation i = true → exec i s = .next t →
    ∃ u v, exec (.pktUpdate p) t = .next u ∧ exec (.pktUpdate p) s = .next v ∧ u.cs = v.cs

/-! ### Queries, readings and the power-on reset -/

/-- Q.BUTTON answers the bit of the button register and writes nothing (44 R111). The query's operand and result are the
spec's decision D19 (log entry 26). -/
def Obligations.QueryButtonReadsItsBit : Prop :=
  ∀ (s : State) (i : Fin 16),
    exec (.qButton i) s = .next { s with results := s.results ++ [.pressed (s.cs.btn.getLsbD i)] }

/-- Q.DPAD answers the direction code as stored and writes nothing (44 R112). The width of its result is the spec's
decision D19 (log entry 26). -/
def Obligations.QueryDpadReadsTheCode : Prop :=
  ∀ s : State, exec .qDpad s = .next { s with results := s.results ++ [.code s.cs.dpad] }

/-- Q.RAW answers the stored bits of each of the eight fields and writes nothing (44 R113). The query's operand and the
width of its result are the spec's decision D19 (log entry 26). -/
def Obligations.QueryRawReadsTheField : Prop :=
  ∀ s : State,
    exec (.qRaw .s0x) s = .next { s with results := s.results ++ [.raw8 s.cs.s0x] } ∧
    exec (.qRaw .s0y) s = .next { s with results := s.results ++ [.raw8 s.cs.s0y] } ∧
    exec (.qRaw .s1x) s = .next { s with results := s.results ++ [.raw8 s.cs.s1x] } ∧
    exec (.qRaw .s1y) s = .next { s with results := s.results ++ [.raw8 s.cs.s1y] } ∧
    exec (.qRaw .t0) s = .next { s with results := s.results ++ [.raw8 s.cs.t0] } ∧
    exec (.qRaw .t1) s = .next { s with results := s.results ++ [.raw8 s.cs.t1] } ∧
    exec (.qRaw .btn) s = .next { s with results := s.results ++ [.raw16 s.cs.btn] } ∧
    exec (.qRaw .dpad) s = .next { s with results := s.results ++ [.raw8 s.cs.dpad] }

/-- A query's answer is determined by `CS` alone, and the query leaves the whole state unchanged but for the answer;
so do any number of queries in any order (44 R114). -/
def Obligations.QueriesAreFreeOfSideEffects : Prop :=
  (∀ (i : Instr) (s : State), isQuery i = true →
    ∃ r, ∀ s' : State, s'.cs = s.cs → exec i s' = .next { s' with results := s'.results ++ [r] }) ∧
  (∀ (qs : List Request) (s : State), (∀ q ∈ qs, ∃ i, decodeRequest s.cfg q = .ok i ∧ isQuery i = true) →
    ∃ rs, rs.length = qs.length ∧ ∀ s' : State, s'.cs = s.cs →
      RunsTo qs.length { s' with pending := qs ++ s'.pending } { s' with results := s'.results ++ rs })

/-- `DPAD_CODE` gives each direction its own code, a code reads back as its direction, and any other code reads as
reserved (10_state R15, 44 R112). The numbering is the parameter of the spec's decision D7 (log entry 5), and that any
other code reads as reserved its decision D12 (U4, log entry 14). -/
def Obligations.DirectionReading : Prop :=
  ∀ c : Config, c.admissible = true →
    [Dir.c, .u, .ur, .r, .dr, .d, .dl, .l, .ul].map (dirCode c.dpadCode) =
      [c.dpadCode.c, c.dpadCode.u, c.dpadCode.ur, c.dpadCode.r, c.dpadCode.dr, c.dpadCode.d, c.dpadCode.dl,
        c.dpadCode.l, c.dpadCode.ul] ∧
    [c.dpadCode.c, c.dpadCode.u, c.dpadCode.ur, c.dpadCode.r, c.dpadCode.dr, c.dpadCode.d, c.dpadCode.dl,
        c.dpadCode.l, c.dpadCode.ul].map (readDir c.dpadCode) =
      [.direction .c, .direction .u, .direction .ur, .direction .r, .direction .dr, .direction .d, .direction .dl,
        .direction .l, .direction .ul] ∧
    (∀ dir, readDir c.dpadCode (dirCode c.dpadCode dir) = .direction dir) ∧
    (∀ v, v ∉ c.dpadCode.toList → readDir c.dpadCode v = .reserved v)

/-- The signed reading of a stick field (10_state R12): `sext_8` of its bits, an integer in -128 .. 127. That it is two's
complement is general knowledge the spec adopts (G2, log entry 23). -/
def Obligations.StickReading : Prop :=
  (∀ v : Byte, stickValue v = if v.toNat < 128 then (v.toNat : Int) else (v.toNat : Int) - 256) ∧
    (∀ v : Byte, -128 ≤ stickValue v ∧ stickValue v ≤ 127) ∧
    stickValue 0xFF = -1 ∧ stickValue 0xFA = -6 ∧ stickValue 0x80 = -128 ∧ stickValue 0x7F = 127 ∧ stickValue 0 = 0

/-- PRESET empties the buffer and gives `CS` the value of `CS_RESET`, answers nothing and changes nothing else (70
R141). The operation is the spec's decision D10 (log entry 12). -/
def Obligations.PResetSetsResetValues : Prop :=
  ∀ s : State, exec .pReset s = .next { s with cs := s.cfg.csReset, buf := [] }
end

