-- ==== Sys2Proof/Laws/Operands.lean ====
section
/-! SUPPORT. What the operand operations do, bit by bit. -/

namespace Sys2Proof.Machine

/-- The delimiter is the zero byte. -/
theorem delim_eq_zero : delim = (0 : Byte) := rfl

/-- Two bytes side by side: the low one has bits 0 to 7, the high one bits 8 to 15. -/
theorem getLsbD_twoBytes (hi lo : Byte) (i : Nat) :
    ((hi ++ lo : Half)).getLsbD i = if i < 8 then lo.getLsbD i else hi.getLsbD (i - 8) := by
  exact BitVec.getLsbD_append

/-- Setting a bit changes that bit and no other. -/
theorem getLsbD_setBit (v : Half) (i j : Fin 16) (b : Bool) :
    (setBit v i b).getLsbD j = if j = i then b else v.getLsbD j := by
  have h1 : ((1 : Half) <<< i.val).getLsbD j = decide (j = i) := by
    revert i j; decide
  cases b
  · rw [show setBit v i false = v &&& ~~~((1 : Half) <<< i.val) from rfl, BitVec.getLsbD_and, BitVec.getLsbD_not, h1]
    by_cases hij : j = i <;> simp [hij]
  · rw [show setBit v i true = v ||| ((1 : Half) <<< i.val) from rfl, BitVec.getLsbD_or, h1]
    by_cases hij : j = i <;> simp [hij]

/-- A packet's bitmask, bit by bit (20_memory R32). -/
theorem getLsbD_packetButtons (order : ByteOrder) (p : Packet) (i : Nat) :
    (packetButtons order p).getLsbD i =
      match order with
      | .little => if i < 8 then p.btn7.getLsbD i else p.btn8.getLsbD (i - 8)
      | .big => if i < 8 then p.btn8.getLsbD i else p.btn7.getLsbD (i - 8) := by
  cases order <;> exact getLsbD_twoBytes _ _ _

end Sys2Proof.Machine
end

