-- ==== Sys2Proof/Laws/State.lean ====
section
/-! SUPPORT. One lemma per field per update of the state, each true by unfolding. -/

namespace Sys2Proof.Machine

@[simp] theorem append_cs (s : State) (b : Byte) : (s.append b).cs = s.cs := rfl
@[simp] theorem append_buf (s : State) (b : Byte) : (s.append b).buf = s.buf ++ [b] := rfl
@[simp] theorem append_cfg (s : State) (b : Byte) : (s.append b).cfg = s.cfg := rfl
@[simp] theorem append_pending (s : State) (b : Byte) : (s.append b).pending = s.pending := rfl
@[simp] theorem append_results (s : State) (b : Byte) : (s.append b).results = s.results := rfl

@[simp] theorem clear_cs (s : State) : s.clear.cs = s.cs := rfl
@[simp] theorem clear_buf (s : State) : s.clear.buf = [] := rfl
@[simp] theorem clear_cfg (s : State) : s.clear.cfg = s.cfg := rfl
@[simp] theorem clear_pending (s : State) : s.clear.pending = s.pending := rfl
@[simp] theorem clear_results (s : State) : s.clear.results = s.results := rfl

@[simp] theorem writeCS_cs (s : State) (v : CS) : (s.writeCS v).cs = v := rfl
@[simp] theorem writeCS_buf (s : State) (v : CS) : (s.writeCS v).buf = s.buf := rfl
@[simp] theorem writeCS_cfg (s : State) (v : CS) : (s.writeCS v).cfg = s.cfg := rfl
@[simp] theorem writeCS_pending (s : State) (v : CS) : (s.writeCS v).pending = s.pending := rfl
@[simp] theorem writeCS_results (s : State) (v : CS) : (s.writeCS v).results = s.results := rfl

@[simp] theorem respond_cs (s : State) (r : Response) : (s.respond r).cs = s.cs := rfl
@[simp] theorem respond_buf (s : State) (r : Response) : (s.respond r).buf = s.buf := rfl
@[simp] theorem respond_cfg (s : State) (r : Response) : (s.respond r).cfg = s.cfg := rfl
@[simp] theorem respond_pending (s : State) (r : Response) : (s.respond r).pending = s.pending := rfl
@[simp] theorem respond_results (s : State) (r : Response) : (s.respond r).results = s.results ++ [r] := rfl

@[simp] theorem project_cs (s : State) (p : Packet) : (s.project p).cs = packetCS s.cfg p := rfl
@[simp] theorem project_buf (s : State) (p : Packet) : (s.project p).buf = s.buf := rfl
@[simp] theorem project_cfg (s : State) (p : Packet) : (s.project p).cfg = s.cfg := rfl
@[simp] theorem project_pending (s : State) (p : Packet) : (s.project p).pending = s.pending := rfl
@[simp] theorem project_results (s : State) (p : Packet) : (s.project p).results = s.results := rfl

@[simp] theorem raiseDrop_state (k : Cause) (s : State) : (raiseDrop k s).1 = s.clear := rfl
@[simp] theorem raiseDrop_answer (k : Cause) (s : State) : (raiseDrop k s).2 = false := rfl

/-- Two states are equal when their five fields are. -/
theorem state_eq {s t : State} (hcs : s.cs = t.cs) (hbuf : s.buf = t.buf) (hcfg : s.cfg = t.cfg)
    (hpending : s.pending = t.pending) (hresults : s.results = t.results) : s = t := by
  cases s; cases t; simp_all

end Sys2Proof.Machine
end

