-- ==== Sys2Proof/Laws/Ops.lean ====
section
/-! SUPPORT. For each shared operation, what it can do, said once; and that every operation on the buffer keeps its
canonical form. -/

namespace Sys2Proof.Machine

/-! ### The buffer's canonical form -/

theorem memory_wf_iff (n : Nat) (m : Memory) :
    Memory.wf n m = true ↔ m.length ≤ n ∧ ∀ b ∈ m, b ≠ delim := by
  simp [Memory.wf]

theorem nil_wf (n : Nat) : Memory.wf n [] = true := by
  simp [Memory.wf]

theorem append_wf {n : Nat} {m : Memory} {b : Byte} (h : Memory.wf n m = true) (hroom : m.length < n)
    (hb : b ≠ delim) : Memory.wf n (m ++ [b]) = true := by
  rw [memory_wf_iff] at *
  refine ⟨by simpa using hroom, fun x hx => ?_⟩
  rcases List.mem_append.1 hx with hx | hx
  · exact h.2 x hx
  · simp_all

theorem reset_buf_wf : Memory.wf State.reset.cfg.bufMax State.reset.buf = true := nil_wf _

/-! ### PUSH of one byte -/

/-- PUSH.DATA either appends the byte or clears the buffer, and answers `false` (41 R81). -/
theorem pushData_cases (b : Byte) (s : State) :
    (s.buf.length < s.cfg.bufMax ∧ pushData b s = (s.append b, false)) ∨
      (s.cfg.bufMax ≤ s.buf.length ∧ pushData b s = (s.clear, false)) := by
  unfold pushData State.len
  split
  · exact .inl ⟨‹_›, rfl⟩
  · exact .inr ⟨by omega, rfl⟩

/-- PUSH.DELIM either projects the packet of a valid frame and answers `true`, or answers `false`; it clears the
buffer in both cases (41 R82). -/
theorem pushDelim_cases (s : State) :
    (∃ p, frameVerdict s.cfg s.buf = .ok p ∧ pushDelim s = (s.clear.project p, true)) ∨
      (∃ k, frameVerdict s.cfg s.buf = .error k ∧ pushDelim s = (s.clear, false)) := by
  unfold pushDelim
  split
  · next k hk => exact .inr ⟨k, hk, rfl⟩
  · next p hp => exact .inl ⟨p, hp, rfl⟩

theorem pushByte_delim (s : State) : pushByte delim s = pushDelim s := by
  simp [pushByte]

theorem pushByte_data {b : Byte} (hb : b ≠ delim) (s : State) : pushByte b s = pushData b s := by
  simp [pushByte, hb]

/-- What one PUSH can do (41 R80 to R82). -/
theorem pushByte_cases (b : Byte) (s : State) :
    (b = delim ∧ ∃ p, frameVerdict s.cfg s.buf = .ok p ∧ pushByte b s = (s.clear.project p, true)) ∨
      (b ≠ delim ∧ s.buf.length < s.cfg.bufMax ∧ pushByte b s = (s.append b, false)) ∨
      pushByte b s = (s.clear, false) := by
  by_cases hb : b = delim
  · subst hb
    rw [pushByte_delim]
    rcases pushDelim_cases s with ⟨p, hp, h⟩ | ⟨k, -, h⟩
    · exact .inl ⟨rfl, p, hp, h⟩
    · exact .inr (.inr h)
  · rw [pushByte_data hb]
    rcases pushData_cases b s with ⟨hroom, h⟩ | ⟨-, h⟩
    · exact .inr (.inl ⟨hb, hroom, h⟩)
    · exact .inr (.inr h)

@[simp] theorem pushByte_cfg (b : Byte) (s : State) : (pushByte b s).1.cfg = s.cfg := by
  rcases pushByte_cases b s with ⟨-, p, -, h⟩ | ⟨-, -, h⟩ | h <;> simp [h]

@[simp] theorem pushByte_pending (b : Byte) (s : State) : (pushByte b s).1.pending = s.pending := by
  rcases pushByte_cases b s with ⟨-, p, -, h⟩ | ⟨-, -, h⟩ | h <;> simp [h]

@[simp] theorem pushByte_results (b : Byte) (s : State) : (pushByte b s).1.results = s.results := by
  rcases pushByte_cases b s with ⟨-, p, -, h⟩ | ⟨-, -, h⟩ | h <;> simp [h]

/-- A PUSH that answers `false` leaves `CS` as it was. -/
theorem pushByte_false_cs {b : Byte} {s : State} (h : (pushByte b s).2 = false) :
    (pushByte b s).1.cs = s.cs := by
  rcases pushByte_cases b s with ⟨-, p, -, he⟩ | ⟨-, -, he⟩ | he <;> simp_all

theorem pushByte_wf {b : Byte} {s : State} (h : Memory.wf s.cfg.bufMax s.buf = true) :
    Memory.wf s.cfg.bufMax (pushByte b s).1.buf = true := by
  rcases pushByte_cases b s with ⟨-, p, -, he⟩ | ⟨hb, hroom, he⟩ | he
  · simpa [he] using nil_wf _
  · simpa [he] using append_wf h hroom hb
  · simpa [he] using nil_wf _

/-! ### PUSHN -/

@[simp] theorem pushBytes_nil (s : State) : pushBytes [] s = (s, false) := rfl

theorem pushBytes_cons (b : Byte) (rest : List Byte) (s : State) :
    pushBytes (b :: rest) s =
      ((pushBytes rest (pushByte b s).1).1, (pushByte b s).2 || (pushBytes rest (pushByte b s).1).2) := rfl

/-- A batch is its parts, one after the other, and its answer is the or of theirs (41 R84). -/
theorem pushBytes_append (a b : List Byte) (s : State) :
    pushBytes (a ++ b) s =
      ((pushBytes b (pushBytes a s).1).1, (pushBytes a s).2 || (pushBytes b (pushBytes a s).1).2) := by
  induction a generalizing s with
  | nil => simp
  | cons x rest ih => simp [pushBytes_cons, ih, Bool.or_assoc]

@[simp] theorem pushBytes_cfg (seq : List Byte) (s : State) : (pushBytes seq s).1.cfg = s.cfg := by
  induction seq generalizing s with
  | nil => rfl
  | cons b rest ih => simp [pushBytes_cons, ih]

@[simp] theorem pushBytes_pending (seq : List Byte) (s : State) :
    (pushBytes seq s).1.pending = s.pending := by
  induction seq generalizing s with
  | nil => rfl
  | cons b rest ih => simp [pushBytes_cons, ih]

@[simp] theorem pushBytes_results (seq : List Byte) (s : State) :
    (pushBytes seq s).1.results = s.results := by
  induction seq generalizing s with
  | nil => rfl
  | cons b rest ih => simp [pushBytes_cons, ih]

theorem pushBytes_wf {seq : List Byte} {s : State} (h : Memory.wf s.cfg.bufMax s.buf = true) :
    Memory.wf s.cfg.bufMax (pushBytes seq s).1.buf = true := by
  induction seq generalizing s with
  | nil => simpa using h
  | cons b rest ih =>
    have hb := pushByte_wf (b := b) h
    have := ih (s := (pushByte b s).1) (by simpa using hb)
    simpa [pushBytes_cons] using this

/-- Data bytes that fit are appended in order (41 R81). -/
theorem pushBytes_fit {e : List Byte} {s : State} (hz : ∀ b ∈ e, b ≠ delim)
    (hfit : s.buf.length + e.length ≤ s.cfg.bufMax) :
    pushBytes e s = ({ s with buf := s.buf ++ e }, false) := by
  induction e generalizing s with
  | nil => simp
  | cons b rest ih =>
    have hb : b ≠ delim := hz b (by simp)
    have hroom : s.buf.length < s.cfg.bufMax := by simp at hfit; omega
    have h1 : pushByte b s = (s.append b, false) := by
      rw [pushByte_data hb]
      rcases pushData_cases b s with ⟨-, h⟩ | ⟨h, -⟩
      · exact h
      · omega
    have h2 := ih (s := s.append b) (fun x hx => hz x (by simp [hx]))
      (by simp at hfit ⊢; omega)
    simp [pushBytes_cons, h1, h2]

/-! ### The escape coding -/

theorem escDecode_cobs {c : Config} (h : c.esc = .cobs) (u : List Byte) : escDecode c u = cobsDecode u := by
  simp [escDecode, h]

theorem escDecode_external {c : Config} (h : c.esc = .external) (u : List Byte) :
    escDecode c u = externalCodec.decode u := by
  simp [escDecode, h]

theorem escEncode_cobs {c : Config} (h : c.esc = .cobs) (p : List Byte) : escEncode c p = cobsEncode p := by
  simp [escEncode, h]

theorem escEncode_external {c : Config} (h : c.esc = .external) (p : List Byte) :
    escEncode c p = externalCodec.encode p := by
  simp [escEncode, h]

/-! ### The packets a byte sequence completes -/

@[simp] theorem acceptedPackets_nil (c : Config) (buf : Memory) : acceptedPackets c buf [] = [] := rfl

theorem acceptedPackets_valid {c : Config} {buf : Memory} {p : Packet} (h : frameVerdict c buf = .ok p)
    (rest : List Byte) : acceptedPackets c buf (delim :: rest) = p :: acceptedPackets c [] rest := by
  simp [acceptedPackets, h]

theorem acceptedPackets_invalid {c : Config} {buf : Memory} {k : Cause} (h : frameVerdict c buf = .error k)
    (rest : List Byte) : acceptedPackets c buf (delim :: rest) = acceptedPackets c [] rest := by
  simp [acceptedPackets, h]

theorem acceptedPackets_append {c : Config} {buf : Memory} {b : Byte} (hb : b ≠ delim) (hroom : buf.length < c.bufMax)
    (rest : List Byte) : acceptedPackets c buf (b :: rest) = acceptedPackets c (buf ++ [b]) rest := by
  simp [acceptedPackets, hb, hroom]

theorem acceptedPackets_overflow {c : Config} {buf : Memory} {b : Byte} (hb : b ≠ delim)
    (hfull : c.bufMax ≤ buf.length) (rest : List Byte) :
    acceptedPackets c buf (b :: rest) = acceptedPackets c [] rest := by
  simp [acceptedPackets, hb, Nat.not_lt.2 hfull]

/-! ### Bus and step -/

theorem withBusPort_next {s after t : State} :
    withBusPort s after = .next t ↔ s.cfg.hasBusPort = true ∧ t = after := by
  unfold withBusPort
  split
  · next hp => exact ⟨fun h => ⟨hp, (Host.Outcome.next.inj h).symm⟩, fun h => by rw [h.2]⟩
  · next hp => exact ⟨fun h => (by cases h), fun h => absurd h.1 hp⟩

/-- What a step can do: stay idle, or run the decoded operation of the next request. -/
theorem step_cases {s t : State} (h : step s = .next t) :
    (s.pending = [] ∧ t = s) ∨
      ∃ r rest i, s.pending = r :: rest ∧ decodeRequest s.cfg r = .ok i ∧
        exec i { s with pending := rest } = .next t := by
  unfold step at h
  split at h
  · next hp => exact .inl ⟨hp, by cases h; rfl⟩
  · next r rest hp =>
    split at h
    · next i hi => exact .inr ⟨r, rest, i, hp, hi, h⟩
    · cases h

end Sys2Proof.Machine
end

