-- ==== Sys2Proof/Laws/PerInstr.lean ====
section
/-! SUPPORT. The family `EncodedSize`, one lemma per operation: how many bytes the written form of an operation
carries, by the formats of 30_encoding R50 and R51 (one byte for a STREAM_BYTE, eleven for a PKT11, eight payload bytes
for a BUSMSG; the entry points without a format carry none). -/

namespace Sys2Proof

/-- The bytes a written form carries. -/
def Encoded.bytes : Encoded → List Byte
  | .request (.push b) => [b]
  | .request (.pushN seq) => seq
  | .request (.busMsg _ payload) => payload
  | .request .fReset => []
  | .request (.qButton _) => []
  | .request .qDpad => []
  | .request (.qRaw _) => []
  | .request .pReset => []
  | .packet bytes => bytes

/-- The number of bytes in the format of an operation (30_encoding R50). -/
def Instr.formatBytes : Instr → Nat
  | .pushDelim => 1
  | .pushData _ => 1
  | .pushN seq => seq.length
  | .fReset => 0
  | .pktUpdate _ => pktLen
  | .busAnalog _ => busPayloadLen
  | .busButton _ => busPayloadLen
  | .busIgnore _ _ => busPayloadLen
  | .qButton _ => 0
  | .qDpad => 0
  | .qRaw _ => 0
  | .pReset => 0

namespace Laws.EncodedSize

/-- Under every configuration the written form has the size of its format. -/
def Statement (i : Instr) : Prop :=
  ∀ c : Config, (encode c i).bytes.length = i.formatBytes

theorem pushDelim : Statement .pushDelim := fun _ => rfl
theorem pushData (b : Byte) : Statement (.pushData b) := fun _ => rfl
theorem pushN (seq : List Byte) : Statement (.pushN seq) := fun _ => rfl
theorem fReset : Statement .fReset := fun _ => rfl
theorem pktUpdate (pkt : Packet) : Statement (.pktUpdate pkt) := fun _ => rfl
theorem busAnalog (p : Payload) : Statement (.busAnalog p) := fun _ => rfl
theorem busButton (p : Payload) : Statement (.busButton p) := fun _ => rfl
theorem busIgnore (id : Nat) (p : Payload) : Statement (.busIgnore id p) := fun _ => rfl
theorem qButton (i : Fin 16) : Statement (.qButton i) := fun _ => rfl
theorem qDpad : Statement .qDpad := fun _ => rfl
theorem qRaw (f : CsField) : Statement (.qRaw f) := fun _ => rfl
theorem pReset : Statement .pReset := fun _ => rfl

end Laws.EncodedSize

end Sys2Proof
end

