-- ==== Sys2Proof/Tests/Slice0.lean ====
section
/-! SUPPORT. Tests with expected results from the spec: the rules' examples, and the vectors of spec/95_test_vectors.md
under the configuration that file fixes. After them, for every statement of Obligations.lean that has hypotheses, a
concrete state and operands that meet them all (`wit_<statement>`). -/

namespace Sys2Proof.Tests

open Sys2Proof.Machine

/-- The machine after PRESET with this buffer. -/
def st (buf : List Byte) : State :=
  { State.reset with buf := buf }

/-- The state an outcome reaches. -/
def after : Host.Outcome State Fault Refusal → Option State
  | .next s => some s
  | .fault _ => none
  | .refused _ => none

/-- The CS value, the buffer and the last answer an outcome reaches. -/
def seen (o : Host.Outcome State Fault Refusal) : Option (CS × List Byte × Option Response) :=
  (after o).map fun s => (s.cs, s.buf, s.results.getLast?)

/-- Packet A of 95_test_vectors: its encoded frame, its bytes and its fields. -/
def encA : List Byte := [0x04, 0xAA, 0x05, 0xFA, 0x02, 0x7F, 0x06, 0xFF, 0x01, 0x02, 0x04, 0xD2]
def pktA : List Byte := [0xAA, 0x05, 0xFA, 0x00, 0x7F, 0x00, 0xFF, 0x01, 0x02, 0x04, 0xD2]
def bodyA : Packet :=
  { s0x := 0x05, s0y := 0xFA, s1x := 0x00, s1y := 0x7F, t0 := 0x00, t1 := 0xFF, btn7 := 0x01, btn8 := 0x02, dpad := 0x04 }
def csA : CS :=
  { s0x := 0x05, s0y := 0xFA, s1x := 0x00, s1y := 0x7F, t0 := 0x00, t1 := 0xFF, btn := 0x0201, dpad := 0x04 }

/-- Packet B of 95_test_vectors. -/
def encB : List Byte := [0x0C, 0xAA, 0x10, 0x20, 0x80, 0xFF, 0x01, 0x02, 0xFF, 0x03, 0x08, 0x12]
def pktB : List Byte := [0xAA, 0x10, 0x20, 0x80, 0xFF, 0x01, 0x02, 0xFF, 0x03, 0x08, 0x12]
def bodyB : Packet :=
  { s0x := 0x10, s0y := 0x20, s1x := 0x80, s1y := 0xFF, t0 := 0x01, t1 := 0x02, btn7 := 0xFF, btn8 := 0x03, dpad := 0x08 }
def csB : CS :=
  { s0x := 0x10, s0y := 0x20, s1x := 0x80, s1y := 0xFF, t0 := 0x01, t1 := 0x02, btn := 0x03FF, dpad := 0x08 }

/-- Packet A2 (A with a corrupt checksum), encoded. -/
def encA2 : List Byte := [0x04, 0xAA, 0x05, 0xFA, 0x02, 0x7F, 0x06, 0xFF, 0x01, 0x02, 0x04, 0xD3]

/-- The same, with these requests still to come. -/
def asking (buf : List Byte) (pending : List Request) : State :=
  { st buf with pending := pending }

/-- The same, on a block whose buffer holds this many bytes. -/
def stOf (bufMax : Nat) (buf : List Byte) : State :=
  { st buf with cfg := { Config.standard with bufMax := bufMax } }

def payload (a b c d e f g h : Byte) : Payload :=
  { p0 := a, p1 := b, p2 := c, p3 := d, p4 := e, p5 := f, p6 := g, p7 := h }

/-! ### WellFormed refuses an ill-formed term for each check -/

theorem test_wf_pushData_delimiter : Instr.wf .standard (.pushData 0) = false := by decide
theorem test_wf_pushData_one : Instr.wf .standard (.pushData 1) = true := by decide
theorem test_wf_busIgnore_analog : Instr.wf .standard (.busIgnore 50 (payload 0 0 0 0 0 0 0 0)) = false := by decide
theorem test_wf_busIgnore_button : Instr.wf .standard (.busIgnore 51 (payload 0 0 0 0 0 0 0 0)) = false := by decide
theorem test_wf_busIgnore_wide : Instr.wf .standard (.busIgnore 2048 (payload 0 0 0 0 0 0 0 0)) = false := by decide
theorem test_wf_busIgnore_other : Instr.wf .standard (.busIgnore 2047 (payload 0 0 0 0 0 0 0 0)) = true := by decide
theorem test_admissible_standard : Config.standard.admissible = true := by decide
theorem test_admissible_noBuffer : Config.admissible { Config.standard with bufMax := 0 } = false := by decide
theorem test_admissible_equalCodes :
    Config.admissible { Config.standard with dpadCode := { DpadCodes.standard with ul := 0 } } = false := by decide
theorem test_admissible_equalBits :
    Config.admissible { Config.standard with btnBit := { ButtonBits.standard with aux5 := 0 } } = false := by decide
theorem test_admissible_narrowId : Config.admissible { Config.standard with idWidth := 5, analogId := 1 } = false := by decide
theorem test_admissible_wideAnalog : Config.admissible { Config.standard with analogId := 2048 } = false := by decide
theorem test_admissible_analogIsButton : Config.admissible { Config.standard with analogId := 51 } = false := by decide

/-! ### Every constructor's decoding (30_encoding R51, R53, R55 to R57, R61) -/

theorem test_decode_pushDelim : decode .standard (.request (.push 0b00000000)) = .ok .pushDelim := by decide
theorem test_decode_pushData : decode .standard (.request (.push 0b00000001)) = .ok (.pushData 0x01) := by decide
theorem test_decode_pushN : decode .standard (.request (.pushN [0x01, 0x00])) = .ok (.pushN [0x01, 0x00]) := by decide
theorem test_decode_fReset : decode .standard (.request .fReset) = .ok .fReset := by decide
theorem test_decode_pktUpdate : decode .standard (.packet pktA) = .ok (.pktUpdate bodyA) := by decide
theorem test_decode_busAnalog :
    decode .standard (.request (.busMsg 50 [0x05, 0xFA, 0x80, 0x7F, 0x00, 0xFF, 0xDE, 0xAD])) =
      .ok (.busAnalog (payload 0x05 0xFA 0x80 0x7F 0x00 0xFF 0xDE 0xAD)) := by decide
theorem test_decode_busButton :
    decode .standard (.request (.busMsg 51 [0x09, 0x05, 0x00, 0x01, 0x00, 0xFF, 0x00, 0x00])) =
      .ok (.busButton (payload 0x09 0x05 0x00 0x01 0x00 0xFF 0x00 0x00)) := by decide
theorem test_decode_busIgnore :
    decode .standard (.request (.busMsg 52 [1, 1, 1, 1, 1, 1, 1, 1])) = .ok (.busIgnore 52 (payload 1 1 1 1 1 1 1 1)) := by
  decide
theorem test_decode_qButton : decode .standard (.request (.qButton 15)) = .ok (.qButton 15) := by decide
theorem test_decode_qButton_16 : decode .standard (.request (.qButton 16)) = .error .buttonIndex := by decide
theorem test_decode_qDpad : decode .standard (.request .qDpad) = .ok .qDpad := by decide
theorem test_decode_qRaw : decode .standard (.request (.qRaw .btn)) = .ok (.qRaw .btn) := by decide
theorem test_decode_pReset : decode .standard (.request .pReset) = .ok .pReset := by decide

/-- PACKET of 30_encoding R62 on A's fields. -/
theorem test_encode_packetA : encodePacket .standard bodyA = pktA := by decide
/-- The header is part of the checksum: with header AB the checksum of A's fields is D3 (packet A3). -/
theorem test_decode_packetA3 :
    decodePacket .standard [0xAB, 0x05, 0xFA, 0x00, 0x7F, 0x00, 0xFF, 0x01, 0x02, 0x04, 0xD3] = .error .header := by decide

/-! ### The table's words, and the step that runs them -/

/-- The table's one fixed pattern, PUSH.DELIM, runs as the first operation after reset. -/
theorem test_word_pushDelim : step (State.reset.withFetchWord 8 0) = exec .pushDelim State.reset := by rfl
/-- A packet's word runs PKT.UPDATE inside PUSH.DELIM. -/
theorem test_word_pktUpdate :
    seen (step (State.reset.withFetchWord 88 0xD2040201FF007F00FA05AA)) = some (csA, [], some (.frameDecoded true)) := by decide
theorem test_word_busAnalog :
    step (State.reset.withFetchWord 80 (50 + 2 ^ 11 * 0xADDEFF007F80FA05)) =
      exec (.busAnalog (payload 0x05 0xFA 0x80 0x7F 0x00 0xFF 0xDE 0xAD)) State.reset := by rfl

/-! ### One step on a small state -/

/-- V1's last PUSH. -/
theorem test_pushDelim_success : seen (exec .pushDelim (st encA)) = some (csA, [], some (.frameDecoded true)) := by decide
/-- V5's last PUSH: the earlier snapshot stays. -/
theorem test_pushDelim_checksum :
    seen (exec .pushDelim { st encA2 with cs := csB }) = some (csB, [], some (.frameDecoded false)) := by decide
/-- V14's 17th PUSH: the byte that overflows is lost too. -/
theorem test_pushData_overflow :
    seen (exec (.pushData 0x55) (st (List.replicate 16 0x55))) = some (CS.neutral, [], some (.frameDecoded false)) := by decide
/-- 41 R81's second example. -/
theorem test_pushData_append :
    seen (exec (.pushData 0x55) (st [1, 2, 3])) = some (CS.neutral, [1, 2, 3, 0x55], some (.frameDecoded false)) := by decide
/-- P4's first batch: A then B, one `true`, B's snapshot. -/
theorem test_pushN_twoFrames :
    seen (exec (.pushN (encA ++ [0] ++ encB ++ [0])) (st [])) = some (csB, [], some (.frameDecoded true)) := by decide +kernel
/-- P4's second batch and the start of C: A then corrupt A2, and a partial frame that stays. -/
theorem test_pushN_lossyBatch :
    seen (exec (.pushN (encA ++ [0] ++ encA2 ++ [0] ++ [0x02, 0xAA])) (st [])) =
      some (csA, [0x02, 0xAA], some (.frameDecoded true)) := by decide +kernel
/-- V21. -/
theorem test_fReset : seen (exec .fReset { st [0x0C, 0xAA, 0x10] with cs := csA }) = some (csA, [], none) := by decide
/-- 43 R104's example (packet D): extreme and reserved values are copied. -/
theorem test_pktUpdate_reserved :
    seen (exec (.pktUpdate { s0x := 0x80, s0y := 0x7F, s1x := 0xFF, s1y := 0x01, t0 := 0x80, t1 := 0x7F,
                             btn7 := 0x00, btn8 := 0xFC, dpad := 0x09 }) (st [])) =
      some ({ s0x := 0x80, s0y := 0x7F, s1x := 0xFF, s1y := 0x01, t0 := 0x80, t1 := 0x7F, btn := 0xFC00, dpad := 0x09 },
        [], none) := by decide
/-- V1's last remark: with BTN_BYTE_ORDER big, BTN is 0102. -/
theorem test_pktUpdate_big :
    packetButtons .big bodyA = 0x0102 := by decide
/-- V22, over B's snapshot: BTN and DPAD keep their values. -/
theorem test_busAnalog :
    seen (exec (.busAnalog (payload 0x05 0xFA 0x80 0x7F 0x00 0xFF 0xDE 0xAD)) { st [7] with cs := csB }) =
      some ({ s0x := 0x05, s0y := 0xFA, s1x := 0x80, s1y := 0x7F, t0 := 0x00, t1 := 0xFF, btn := 0x03FF, dpad := 0x08 },
        [7], some (.decoded true)) := by decide
/-- V26, over A's snapshot: the sticks and triggers keep their values. -/
theorem test_busButton :
    seen (exec (.busButton (payload 0x09 0x05 0x00 0x01 0x00 0xFF 0x00 0x00)) { st [7] with cs := csA }) =
      some ({ csA with btn := 0x00A5, dpad := 0x04 }, [7], some (.decoded true)) := by decide
/-- V28 with BUS_BTN_HI preserve. -/
theorem test_busButton_preserve :
    busButtons { Config.standard with busBtnHi := .preserve } (payload 0x06 0xFA 0 0 0 0 0 0) 0xFC00 = 0xFC0A := by decide
/-- V27. -/
theorem test_busIgnore :
    seen (exec (.busIgnore 52 (payload 1 1 1 1 1 1 1 1)) { st [7] with cs := csA }) =
      some (csA, [7], some (.decoded false)) := by decide
/-- V30. -/
theorem test_qButton_pressed :
    seen (exec (.qButton 9) { st [7] with cs := csA }) = some (csA, [7], some (.pressed true)) := by decide
theorem test_qButton_released :
    seen (exec (.qButton 1) { st [7] with cs := csA }) = some (csA, [7], some (.pressed false)) := by decide
theorem test_qDpad : seen (exec .qDpad { st [7] with cs := csA }) = some (csA, [7], some (.code 0x04)) := by decide
theorem test_qRaw_s0y : seen (exec (.qRaw .s0y) { st [7] with cs := csA }) = some (csA, [7], some (.raw8 0xFA)) := by decide
theorem test_qRaw_btn : seen (exec (.qRaw .btn) { st [7] with cs := csA }) = some (csA, [7], some (.raw16 0x0201)) := by decide
/-- V31. -/
theorem test_pReset : seen (exec .pReset { st [0x0C, 0xAA] with cs := csB }) = some (CS.neutral, [], none) := by decide

/-! ### Escape decoding (95_test_vectors 2.3) and the causes (V6 to V12) -/

theorem test_esc_units :
    [[0x01, 0x00], [0x02, 0x41, 0x00], [0x01, 0x01, 0x01, 0x00], [0x03, 0x11, 0x22, 0x02, 0x33, 0x00],
      [0x03, 0x11, 0x22, 0x01, 0x00], [0x01, 0x03, 0x11, 0x22, 0x00], [0x02, 0x00], [0x05, 0x01, 0x02, 0x00]].map cobsDecode =
      [some [], some [0x41], some [0x00, 0x00], some [0x11, 0x22, 0x00, 0x33], some [0x11, 0x22, 0x00],
        some [0x00, 0x11, 0x22], none, none] := by decide
/-- An 0xFF block has no zero after it, and needs all its 254 data bytes. -/
theorem test_esc_ff :
    cobsDecode (0xFF :: List.replicate 254 0x11 ++ [0x02, 0x22, 0x00]) = some (List.replicate 254 0x11 ++ [0x22]) := by
  decide +kernel
theorem test_esc_ff_short : cobsDecode (0xFF :: List.replicate 253 0x11 ++ [0x00]) = none := by decide +kernel
/-- Arguments that are no unit: the model's choice of log entry 9. -/
theorem test_esc_noUnit :
    [[], [0x41], [0x00], [0x00, 0x00], [0x02, 0x00, 0x00]].map cobsDecode = [none, none, some [], none, some [0x00]] := by
  decide
theorem test_esc_encode : cobsEncode pktA = encA ∧ cobsEncode pktB = encB := by decide
theorem test_causes :
    [[], [0x02], [0x01], [0x04, 0xAB, 0x05, 0xFA, 0x02, 0x7F, 0x06, 0xFF, 0x01, 0x02, 0x04, 0xD3], encA2].map
        (fun buf => dropCause .pushDelim (st buf)) =
      [some .noneEmpty, some .decode, some .length, some .header, some .checksum] := by decide

/-! ### Whole runs from reset -/

/-- P5: a bus message between the bytes of a serial frame. -/
theorem test_program_P5 :
    seen (Host.Core.run Sys2Proof.core 4 { State.reset with pending :=
        [.pushN [0x0C, 0xAA, 0x10, 0x20, 0x80, 0xFF],
         .busMsg 51 [0xF6, 0xF8, 0x00, 0x00, 0x00, 0x00, 0x00, 0x02], .qDpad,
         .pushN [0x01, 0x02, 0xFF, 0x03, 0x08, 0x12, 0x00]] }) = some (csB, [], some (.frameDecoded true)) := by decide

/-! ### Witnesses: the hypotheses of each statement can be met -/

theorem wit_StepRunsDecodedOperation :
    (asking [] [.push 0x55]).pending = .push 0x55 :: [] ∧
      decodeRequest (asking [] [.push 0x55]).cfg (.push 0x55) = .ok (.pushData 0x55) := by decide
theorem wit_StepIdlesWithoutRequest : State.reset.pending = [] := by decide
theorem wit_StepRefusesNonOperations_short :
    (asking [] [.busMsg 50 [1, 2, 3, 4, 5, 6, 7]]).pending = [.busMsg 50 [1, 2, 3, 4, 5, 6, 7]] ∧
      [1, 2, 3, 4, 5, 6, 7].length ≠ 8 := by decide
theorem wit_StepRefusesNonOperations_wide :
    (asking [] [.busMsg 2048 [1, 2, 3, 4, 5, 6, 7, 8]]).pending = [.busMsg 2048 [1, 2, 3, 4, 5, 6, 7, 8]] ∧
      [1, 2, 3, 4, 5, 6, 7, 8].length = 8 ∧
      2 ^ (asking [] [.busMsg 2048 [1, 2, 3, 4, 5, 6, 7, 8]]).cfg.idWidth ≤ 2048 := by decide
theorem wit_StepRefusesNonOperations_index :
    (asking [] [.qButton 16]).pending = [.qButton 16] ∧ 16 ≤ 16 := by decide
theorem wit_StepKeepsParameters :
    step (asking [] [.push 0x55]) =
      .next { st [0x55] with results := [.frameDecoded false] } := by rfl
theorem wit_StepKeepsInvariant :
    (asking [] [.push 0x55]).Inv ∧
      step (asking [] [.push 0x55]) = .next { st [0x55] with results := [.frameDecoded false] } :=
  ⟨⟨by decide, by decide⟩, rfl⟩
/-- The invariant at its boundary: a full buffer of BUF_MAX non-zero bytes, and the step that drops it. -/
theorem wit_StepKeepsInvariant_full :
    (asking (List.replicate 16 0x55) [.push 0x55]).Inv ∧
      step (asking (List.replicate 16 0x55) [.push 0x55]) = .next { st [] with results := [.frameDecoded false] } :=
  ⟨⟨by decide, by decide⟩, rfl⟩
theorem wit_EveryOperationCompletes :
    Instr.wf State.reset.cfg (.busIgnore 52 (payload 1 1 1 1 1 1 1 1)) = true ∧
      isBusOperation (.busIgnore 52 (payload 1 1 1 1 1 1 1 1)) = true ∧ State.reset.cfg.hasBusPort = true := by decide
theorem wit_AcceptableRunsNeverStop :
    (asking [7] [.push 0x55, .busMsg 51 [9, 0, 0, 0, 0, 0, 0, 0]]).Inv ∧
      Acceptable (asking [7] [.push 0x55, .busMsg 51 [9, 0, 0, 0, 0, 0, 0, 0]]).cfg
        (asking [7] [.push 0x55, .busMsg 51 [9, 0, 0, 0, 0, 0, 0, 0]]).pending := by
  refine ⟨⟨by decide, by decide⟩, fun r hr => ?_⟩
  simp only [asking] at hr
  simp only [List.mem_cons, List.not_mem_nil, or_false] at hr
  rcases hr with rfl | rfl
  · exact ⟨.pushData 0x55, by decide, fun _ => rfl⟩
  · exact ⟨.busButton (payload 9 0 0 0 0 0 0 0), by decide, fun _ => rfl⟩
theorem wit_IllFormedTermsAreRefused :
    2 ^ State.reset.cfg.idWidth ≤ 2048 ∧ 50 = State.reset.cfg.analogId := by decide
theorem wit_BusAbsentIsRefused :
    { State.reset with cfg := { Config.standard with hasBusPort := false } }.cfg.hasBusPort = false ∧
      52 < 2 ^ { State.reset with cfg := { Config.standard with hasBusPort := false } }.cfg.idWidth ∧
      52 ≠ { State.reset with cfg := { Config.standard with hasBusPort := false } }.cfg.analogId ∧ 52 ≠ 51 := by decide
theorem wit_DecodeOfEncode :
    Config.standard.admissible = true ∧ Instr.wf .standard (.busIgnore 2047 (payload 1 1 1 1 1 1 1 1)) = true := by decide
theorem wit_EncodeOfDecode : decode .standard (.packet pktA) = .ok (.pktUpdate bodyA) := by decide
theorem wit_DecodedIsWellFormed : decode .standard (.request (.push 0x55)) = .ok (.pushData 0x55) := by decide
/-- A is accepted; with its checksum one more it is not (packet A2). -/
theorem wit_ChecksumIsExclusiveOr :
    decodePacket .standard [0xAA, 0x05, 0xFA, 0x00, 0x7F, 0x00, 0xFF, 0x01, 0x02, 0x04, 0xD2] = .ok bodyA ∧
      (0xAA : Byte) = Config.standard.header ∧
      (0xD3 : Byte) ≠ 0xAA ^^^ 0x05 ^^^ 0xFA ^^^ 0x00 ^^^ 0x7F ^^^ 0x00 ^^^ 0xFF ^^^ 0x01 ^^^ 0x02 ^^^ 0x04 := by decide
theorem wit_ChecksumCheckIsZeroTest : pktA.length = 11 := by decide
theorem wit_FrameChecks_length :
    (st [0x01]).buf ≠ [] ∧ escDecode (st [0x01]).cfg ([0x01] ++ [0]) = some [] ∧ ([] : List Byte).length ≠ 11 := by decide
theorem wit_FrameChecks_header :
    (st [0x0C, 0xAB, 1, 1, 1, 1, 1, 1, 1, 1, 1, 1]).buf ≠ [] ∧
      escDecode (st [0x0C, 0xAB, 1, 1, 1, 1, 1, 1, 1, 1, 1, 1]).cfg ([0x0C, 0xAB, 1, 1, 1, 1, 1, 1, 1, 1, 1, 1] ++ [0]) =
        some [0xAB, 1, 1, 1, 1, 1, 1, 1, 1, 1, 1] ∧
      ([0xAB, 1, 1, 1, 1, 1, 1, 1, 1, 1, 1] : List Byte).length = 11 ∧
      ([0xAB, 1, 1, 1, 1, 1, 1, 1, 1, 1, 1] : List Byte)[0]? ≠ some (0xAA : Byte) := by decide
theorem wit_FrameChecks_checksum :
    (st encA2).buf ≠ [] ∧ escDecode (st encA2).cfg ((st encA2).buf ++ [0]) = some (pktA.set 10 0xD3) ∧
      (pktA.set 10 0xD3).length = 11 ∧ (pktA.set 10 0xD3)[0]? = some (st encA2).cfg.header ∧
      (pktA.set 10 0xD3)[10]? ≠ some (xor8 ((pktA.set 10 0xD3).take 10)) := by decide
theorem wit_FrameChecks_valid :
    (st encA).buf ≠ [] ∧ escDecode (st encA).cfg ((st encA).buf ++ [0]) = some pktA ∧
      wellFormedPacket (st encA).cfg pktA := by
  refine ⟨by decide, by decide, by decide, by decide, by decide⟩
/-- At both ends of the offsets' range. -/
theorem wit_SingleByteChangeIsDetected :
    decodePacket .standard pktA = .ok bodyA ∧ pktA[0]? ≠ some (0xAB : Byte) ∧ pktA[10]? ≠ some (0xD3 : Byte) := by decide
/-- The blind spot, packet A4 of the vectors. -/
theorem wit_CancellingChangesAreAccepted :
    decodePacket .standard pktA = .ok bodyA ∧ ((pktA.set 1 0x04).set 2 0xFB).length = 11 ∧
      ((pktA.set 1 0x04).set 2 0xFB)[0]? = pktA[0]? ∧
      xor8 (List.zipWith (· ^^^ ·) pktA ((pktA.set 1 0x04).set 2 0xFB)) = 0 := by decide
theorem wit_SwappedBytesAreAccepted : decodePacket .standard pktA = .ok bodyA ∧ 1 ≤ 1 ∧ 9 ≤ 9 := by decide
theorem wit_PushDataAppendsOrDrops_room :
    (0x55 : Byte) ≠ 0 ∧ (st (List.replicate 15 0x55)).buf.length < (st (List.replicate 15 0x55)).cfg.bufMax := by decide
theorem wit_PushDataAppendsOrDrops_full :
    (0x55 : Byte) ≠ 0 ∧ (st (List.replicate 16 0x55)).cfg.bufMax ≤ (st (List.replicate 16 0x55)).buf.length := by decide
theorem wit_PushDelimDecodesTheFrame_empty : (st []).buf = [] := by decide
theorem wit_PushDelimDecodesTheFrame_valid :
    (st encB).buf ≠ [] ∧ escDecode (st encB).cfg ((st encB).buf ++ [0]) = some pktB ∧ pktB.length = 11 ∧
      pktB[0]? = some (st encB).cfg.header ∧ pktB[10]? = some (xor8 (pktB.take 10)) := by decide
/-- A buffer at its maximum that does not decode: the third clause's hypotheses. -/
theorem wit_PushDelimDecodesTheFrame_invalid :
    (st (List.replicate 16 0x55)).buf ≠ [] ∧
      escDecode (st (List.replicate 16 0x55)).cfg ((st (List.replicate 16 0x55)).buf ++ [0]) = none := by decide
theorem wit_PushDelimRunsPktUpdate : frameVerdict (st encA).cfg (st encA).buf = .ok bodyA := by decide
theorem wit_BatchKeepsLastValidFrame :
    (st []).buf = [] ∧ (∀ b ∈ encA ++ encB, b ≠ 0) ∧ encA.length ≤ 16 ∧ encB.length ≤ 16 ∧
      frameVerdict (st []).cfg encA = .ok bodyA ∧ frameVerdict (st []).cfg encB = .ok bodyB ∧
      frameVerdict (st []).cfg encA2 = .error .checksum := by decide
theorem wit_FrameTheorem_valid :
    (st []).buf = [] ∧ encA ≠ [] ∧ (∀ b ∈ encA, b ≠ 0) ∧ encA.length ≤ (st []).cfg.bufMax ∧
      escDecode (st []).cfg (encA ++ [0]) = some pktA ∧ pktA.length = 11 ∧ pktA[0]? = some (st []).cfg.header ∧
      pktA[10]? = some (xor8 (pktA.take 10)) := by decide
theorem wit_FrameTheorem_invalid :
    (∀ b ∈ List.replicate 16 (0x55 : Byte), b ≠ 0) ∧ (List.replicate 16 (0x55 : Byte)).length ≤ (st []).cfg.bufMax ∧
      escDecode (st []).cfg (List.replicate 16 0x55 ++ [0]) = none := by decide
/-- The smallest buffer that can hold a frame. -/
theorem wit_RoundTripByteByByte :
    encA = escEncode (stOf 12 []).cfg (encodePacket (stOf 12 []).cfg bodyA) ∧ encA.length ≤ (stOf 12 []).cfg.bufMax ∧
      (stOf 12 []).buf = [] := by decide
theorem wit_DelimiterRestoresAlignment :
    encB = escEncode (stOf 12 [1]).cfg (encodePacket (stOf 12 [1]).cfg bodyB) ∧
      encB.length ≤ (stOf 12 [1]).cfg.bufMax := by decide
theorem wit_DelimiterForgetsThePast : (st [1, 2]).cfg = { st [] with cs := csB }.cfg := by decide
/-- A buffer just filled, the byte that overflows it, and the one after. -/
theorem wit_OverlongInputKeepsTail :
    (st []).buf = [] ∧ (∀ b ∈ List.replicate 18 (0x55 : Byte), b ≠ 0) ∧
      [16, 17, 18].map (fun n => (List.replicate n (0x55 : Byte)).length % ((st []).cfg.bufMax + 1)) = [16, 0, 1] := by decide
theorem wit_FrameAfterOverflowIsAccepted :
    (st (List.replicate 16 0x55)).buf.length = (st (List.replicate 16 0x55)).cfg.bufMax ∧ (0x55 : Byte) ≠ 0 ∧
      encB ≠ [] ∧ (∀ b ∈ encB, b ≠ 0) ∧ encB.length ≤ 16 ∧ escDecode .standard (encB ++ [0]) = some pktB ∧
      pktB.length = 11 ∧ pktB[0]? = some Config.standard.header ∧ pktB[10]? = some (xor8 (pktB.take 10)) := by decide
/-- One byte short of a frame, in a buffer one byte short of the room for it. -/
theorem wit_SuccessNeedsTwelveBytes :
    (stOf 11 encA.tail).cfg.esc = .cobs ∧ (stOf 11 encA.tail).buf.length ≠ 12 ∧ (stOf 11 encA.tail).cfg.bufMax < 12 ∧
      (stOf 11 encA.tail).buf.length ≤ (stOf 11 encA.tail).cfg.bufMax := by decide
theorem wit_CanonicalStateWriters_accepted :
    frameVerdict (st encA).cfg (st encA).buf = .ok bodyA ∧
      after (exec .pushDelim (st encA)) = some { st [] with cs := csA, results := [.frameDecoded true] } := by decide
theorem wit_CanonicalStateWriters_dropped :
    frameVerdict (st encA2).cfg (st encA2).buf = .error .checksum ∧
      after (exec .pushDelim (st encA2)) = some { st [] with results := [.frameDecoded false] } := by decide
/-- Of A, then B, then the corrupt A2, the last accepted packet is B. -/
theorem wit_CanonicalStateWriters_batch :
    (acceptedPackets .standard [] (encA ++ [0] ++ encB ++ [0] ++ encA2 ++ [0])).getLast? = some bodyB ∧
      seen (exec (.pushN (encA ++ [0] ++ encB ++ [0] ++ encA2 ++ [0])) (st [])) =
        some (csB, [], some (.frameDecoded true)) := by decide +kernel
theorem wit_CanonicalStateWriters_noFrame :
    acceptedPackets .standard [] (encA2 ++ [0]) = [] ∧
      seen (exec (.pushN (encA2 ++ [0])) (st [])) = some (CS.neutral, [], some (.frameDecoded false)) := by decide
theorem wit_CauseTable :
    dropCause .pushDelim (st encA2) = some .checksum ∧
      after (exec .pushDelim (st encA2)) = some { st [] with results := [.frameDecoded false] } := by decide
theorem wit_CauseTable_none : isPush .fReset = false ∧ ∀ id p, Instr.fReset ≠ .busIgnore id p :=
  ⟨by decide, fun _ _ h => by cases h⟩
theorem wit_FramerDoesNotReadCanonicalState :
    isPush .pushDelim = true ∧ after (exec .pushDelim (st [])) = some { st [] with results := [.frameDecoded false] } := by decide
theorem wit_CobsRoundTrip_converse :
    encA ≠ [] ∧ encA.length ≤ 254 ∧ (∀ b ∈ encA, b ≠ 0) ∧ cobsDecode (encA ++ [0]) = some pktA := by decide
theorem wit_CobsRoundTrip : (List.replicate 253 (0 : Byte)).length < 254 := by decide +kernel
theorem wit_CobsNeverExpands : 2 ≤ [(0x01 : Byte), 0x00].length ∧ cobsDecode [0x01, 0x00] = some [] := by decide
/-- The code byte 05 at index 0 of three encoded bytes, in 95_test_vectors 2.3: the failure. -/
theorem wit_CobsLengthLaw_fails :
    ([0x05, 0x01, 0x02] : List Byte) ≠ [] ∧ (∀ b ∈ ([0x05, 0x01, 0x02] : List Byte), b ≠ 0) ∧
      OnChain [0x05, 0x01, 0x02] 0 ∧ ([0x05, 0x01, 0x02] : List Byte)[0]? = some 0x05 ∧ 3 < 0 + (0x05 : Byte).toNat :=
  ⟨by decide, by decide, .first (by decide), by decide, by decide⟩
/-- A code byte that points just to the end of the encoded bytes: no failure. -/
theorem wit_CobsLengthLaw_succeeds :
    ([0x02, 0x41] : List Byte) ≠ [] ∧ (∀ b ∈ ([0x02, 0x41] : List Byte), b ≠ 0) ∧
      ¬ 2 < 0 + (0x02 : Byte).toNat ∧ cobsDecode [0x02, 0x41, 0x00] = some [0x41] := by decide
theorem wit_CobsLengthLaw :
    2 ≤ (encA ++ [0]).length ∧ (encA ++ [0]).length ≤ 255 ∧ cobsDecode (encA ++ [0]) = some pktA := by decide
theorem wit_BusAnalogWritesSixFields : State.reset.cfg.hasBusPort = true := by decide
/-- Bit 15 is no named button's. -/
theorem wit_BusButtonWritesButtonsAndDirection :
    State.reset.cfg.admissible = true ∧ State.reset.cfg.hasBusPort = true ∧ (15 : Fin 16) ∉ State.reset.cfg.btnBit.toList := by
  decide
theorem wit_BusIgnoreTouchesNothing :
    State.reset.cfg.hasBusPort = true ∧ 2047 < 2 ^ State.reset.cfg.idWidth ∧ 2047 ≠ State.reset.cfg.analogId ∧ 2047 ≠ 51 := by
  decide
theorem wit_BusButtonDirectionIsDefined : State.reset.cfg.hasBusPort = true := by decide
/-- A frame with a defined code: both clauses about accepted packets. -/
theorem wit_DirectionInvariantAndItsLimit_defined :
    acceptedBy .pushDelim (st encA) = [bodyA] ∧ bodyA.dpad ∈ (st encA).cfg.dpadCode.toList ∧
      (st encA).cs.dpad ∈ (st encA).cfg.dpadCode.toList ∧
      after (exec .pushDelim (st encA)) = some { st [] with cs := csA, results := [.frameDecoded true] } := by decide
/-- A batch that ends with a packet of code 9, the smallest reserved one. -/
theorem wit_DirectionInvariantAndItsLimit_reserved :
    (acceptedBy (.pushN (encA ++ [0] ++ cobsEncode (encodePacket .standard { bodyA with dpad := 9 }) ++ [0])) (st [])).getLast? =
        some { bodyA with dpad := 9 } ∧
      (9 : Byte) ∉ (st []).cfg.dpadCode.toList ∧
      seen (exec (.pushN (encA ++ [0] ++ cobsEncode (encodePacket .standard { bodyA with dpad := 9 }) ++ [0])) (st [])) =
        some ({ csA with dpad := 9 }, [], some (.frameDecoded true)) := by decide +kernel
theorem wit_DirectionInvariantAndItsLimit_pReset :
    State.reset.cfg.csReset.dpad ∈ State.reset.cfg.dpadCode.toList ∧ acceptedBy .pReset State.reset = [] ∧
      State.reset.cs.dpad ∈ State.reset.cfg.dpadCode.toList ∧
      after (exec .pReset State.reset) = some State.reset := by decide
theorem wit_DirectionInvariantAndItsLimit_busButton :
    after (exec (.busButton (payload 0xFF 0 0 0 0 0 0 0)) State.reset) =
      some { State.reset with cs := { CS.neutral with dpad := 2 }, results := [.decoded true] } := by decide
theorem wit_BusMessageIsIdempotent :
    isBusOperation (.busButton (payload 9 0 0 0 0 0 0 0)) = true ∧
      after (exec (.busButton (payload 9 0 0 0 0 0 0 0)) State.reset) =
        some { State.reset with cs := { CS.neutral with dpad := 4 }, results := [.decoded true] } := by decide
theorem wit_BusMessagesCommute : State.reset.cfg.hasBusPort = true := by decide
theorem wit_BusIsIndependentOfFramer :
    isBusOperation (.busAnalog (payload 1 2 3 4 5 6 7 8)) = true ∧
      after (exec (.busAnalog (payload 1 2 3 4 5 6 7 8)) State.reset) =
        some { State.reset with cs := { CS.neutral with s0x := 1, s0y := 2, s1x := 3, s1y := 4, t0 := 5, t1 := 6 },
                                results := [.decoded true] } := by decide
theorem wit_PacketOverwritesBusMessages :
    isBusOperation (.busIgnore 52 (payload 1 1 1 1 1 1 1 1)) = true ∧
      after (exec (.busIgnore 52 (payload 1 1 1 1 1 1 1 1)) State.reset) =
        some { State.reset with results := [.decoded false] } := by decide
theorem wit_QueriesAreFreeOfSideEffects : isQuery (.qRaw .btn) = true ∧ State.reset.cs = (st [1]).cs := by decide
/-- A sequence of two queries, the first at the last button. -/
theorem wit_QueriesAreFreeOfSideEffects_sequence :
    decodeRequest State.reset.cfg (.qButton 15) = .ok (.qButton 15) ∧ isQuery (.qButton 15) = true ∧
      decodeRequest State.reset.cfg .qDpad = .ok .qDpad ∧ isQuery .qDpad = true := by decide
theorem wit_DirectionReading : Config.standard.admissible = true ∧ (9 : Byte) ∉ Config.standard.dpadCode.toList := by decide

end Sys2Proof.Tests
end

section
/-! PROOFS of the family 00_scope: a step runs the decoded operation, every well-formed operation completes, and an
acceptable run never stops. The layer below says once when `exec` completes and with which state (`exec_next_iff`), and
what every completed operation keeps; the theorems about steps and runs go through it. -/

namespace Sys2Proof.Machine

/-! ### When an operation completes, and in which state -/

/-- The state a completed operation leaves. PUSH.DELIM and PUSH.DATA are PUSH of their byte (41 R80); `exec_next_iff`
ties it to `exec`. -/
def completed : Instr → State → State
  | .pushDelim, s => answerFrame (pushByte delim s)
  | .pushData b, s => answerFrame (pushByte b s)
  | .pushN seq, s => answerFrame (pushBytes seq s)
  | .fReset, s => s.clear
  | .pktUpdate p, s => s.project p
  | .busAnalog p, s => (s.writeCS (analogCS p s.cs)).respond (.decoded true)
  | .busButton p, s => (s.writeCS (buttonCS s.cfg p s.cs)).respond (.decoded true)
  | .busIgnore _ _, s => s.respond (.decoded false)
  | .qButton i, s => s.respond (.pressed (s.cs.btn.getLsbD i))
  | .qDpad, s => s.respond (.code s.cs.dpad)
  | .qRaw f, s => s.respond (rawField s.cs f)
  | .pReset, s => s.clear.writeCS s.cfg.csReset

theorem execPushDelim_eq (s : State) : execPushDelim s = .next (answerFrame (pushByte delim s)) := by
  rw [execPushDelim, pushByte_delim]

theorem execPushData_next_iff {b : Byte} {s t : State} :
    execPushData b s = .next t ↔ b ≠ delim ∧ t = answerFrame (pushByte b s) := by
  by_cases hb : b = delim
  · simp [execPushData, hb]
  · simpa [execPushData, hb, pushByte_data hb] using eq_comm

theorem execBusIgnore_next_iff {id : Nat} {p : Payload} {s t : State} :
    execBusIgnore id p s = .next t ↔
      (Instr.busIgnore id p).wf s.cfg = true ∧ s.cfg.hasBusPort = true ∧ t = s.respond (.decoded false) := by
  by_cases hwf : (Instr.busIgnore id p).wf s.cfg = true
  · rw [execBusIgnore, if_pos hwf, withBusPort_next]
    exact (and_iff_right hwf).symm
  · simp [execBusIgnore, hwf]

/-- The operations that nothing in the state or the operands can refuse. -/
theorem exec_next_iff_of_unconditional {i : Instr} {s t : State} (hexec : exec i s = .next (completed i s))
    (hwf : i.wf s.cfg = true) (hbus : isBusOperation i = false) :
    exec i s = .next t ↔
      i.wf s.cfg = true ∧ (isBusOperation i = true → s.cfg.hasBusPort = true) ∧ t = completed i s := by
  simpa [hexec, hwf, hbus] using eq_comm

/-- An operation completes exactly when it is well formed and, on the bus, has its unit; what it leaves is
`completed`. -/
theorem exec_next_iff {i : Instr} {s t : State} :
    exec i s = .next t ↔
      i.wf s.cfg = true ∧ (isBusOperation i = true → s.cfg.hasBusPort = true) ∧ t = completed i s := by
  cases i with
  | pushDelim => exact exec_next_iff_of_unconditional (execPushDelim_eq s) rfl rfl
  | pushN | fReset | pktUpdate | qButton | qDpad | qRaw | pReset =>
    exact exec_next_iff_of_unconditional rfl rfl rfl
  | pushData b => simp [exec, completed, Instr.wf, isBusOperation, execPushData_next_iff]
  | busAnalog p => simp [exec, completed, Instr.wf, isBusOperation, execBusAnalog, withBusPort_next]
  | busButton p => simp [exec, completed, Instr.wf, isBusOperation, execBusButton, withBusPort_next]
  | busIgnore id p => simp only [exec, completed, isBusOperation, execBusIgnore_next_iff, forall_const]

/-! ### What every completed operation keeps -/

@[simp] theorem answerFrame_cfg (r : State × Bool) : (answerFrame r).cfg = r.1.cfg := rfl
@[simp] theorem answerFrame_pending (r : State × Bool) : (answerFrame r).pending = r.1.pending := rfl
@[simp] theorem answerFrame_buf (r : State × Bool) : (answerFrame r).buf = r.1.buf := rfl

@[simp] theorem completed_cfg (i : Instr) (s : State) : (completed i s).cfg = s.cfg := by
  cases i <;> simp [completed]

@[simp] theorem completed_pending (i : Instr) (s : State) : (completed i s).pending = s.pending := by
  cases i <;> simp [completed]

/-- The buffer keeps its canonical form: only the PUSH operations append to it, and they test for room and for the
delimiter. -/
theorem completed_buf_wf (i : Instr) {s : State} (h : Memory.wf s.cfg.bufMax s.buf = true) :
    Memory.wf s.cfg.bufMax (completed i s).buf = true := by
  cases i with
  | pushDelim | pushData => exact pushByte_wf h
  | pushN => exact pushBytes_wf h
  | fReset | pReset => exact nil_wf _
  | pktUpdate | busAnalog | busButton | busIgnore | qButton | qDpad | qRaw => exact h

theorem completed_inv (i : Instr) {s : State} (h : s.Inv) : (completed i s).Inv := by
  obtain ⟨hadm, hbuf⟩ := h
  exact ⟨by rwa [completed_cfg], by rw [completed_cfg]; exact completed_buf_wf i hbuf⟩

/-! ### What the decoder reads from a request is well formed -/

theorem decodeByte_wf (c : Config) (b : Byte) : (decodeByte b).wf c = true := by
  unfold decodeByte
  split
  · rfl
  · next hb => exact decide_eq_true hb

theorem decodeBus_wf {c : Config} {id : Nat} (hid : id < 2 ^ c.idWidth) (p : Payload) :
    (decodeBus c id p).wf c = true := by
  unfold decodeBus
  split
  · rfl
  · next hanalog =>
    split
    · rfl
    · next hbutton => exact decide_eq_true ⟨hid, hanalog, hbutton⟩

/-- A bus message that decodes carries a payload and an identifier of `ID_WIDTH` bits (30_encoding R55). -/
theorem decodeRequest_busMsg_ok {c : Config} {id : Nat} {payload : List Byte} {i : Instr}
    (h : decodeRequest c (.busMsg id payload) = .ok i) :
    ∃ p, Payload.ofList payload = some p ∧ id < 2 ^ c.idWidth ∧ i = decodeBus c id p := by
  simp only [decodeRequest] at h
  split at h
  · cases h
  · next p hp =>
    split at h
    · next hid => exact ⟨p, hp, hid, (Except.ok.inj h).symm⟩
    · cases h

theorem decodeRequest_wf {c : Config} {r : Request} {i : Instr} (h : decodeRequest c r = .ok i) :
    i.wf c = true := by
  cases r with
  | push b => cases h; exact decodeByte_wf c b
  | busMsg id payload =>
    obtain ⟨p, -, hid, rfl⟩ := decodeRequest_busMsg_ok h
    exact decodeBus_wf hid p
  | qButton n =>
    simp only [decodeRequest] at h
    split at h <;> cases h
    rfl
  | pushN | fReset | qDpad | qRaw | pReset => cases h; rfl

/-! ### One step -/

theorem step_idle {s : State} (h : s.pending = []) : step s = .next s := by
  simp only [step, h]

theorem step_of_decode {s : State} {r : Request} {rest : List Request} {i : Instr}
    (hpending : s.pending = r :: rest) (hdecode : decodeRequest s.cfg r = .ok i) :
    step s = exec i { s with pending := rest } := by
  simp only [step, hpending, hdecode]

/-- A step that goes on leaves the state as it is, or the one its operation leaves when the request is taken. -/
theorem step_next_cases {s t : State} (h : step s = .next t) :
    (s.pending = [] ∧ t = s) ∨
      ∃ r rest i, s.pending = r :: rest ∧ decodeRequest s.cfg r = .ok i ∧
        t = completed i { s with pending := rest } := by
  obtain hidle | ⟨r, rest, i, hpending, hdecode, hexec⟩ := step_cases h
  · exact .inl hidle
  · obtain ⟨-, -, ht⟩ := exec_next_iff.1 hexec
    exact .inr ⟨r, rest, i, hpending, hdecode, ht⟩

theorem step_cfg {s t : State} (h : step s = .next t) : t.cfg = s.cfg := by
  obtain ⟨-, rfl⟩ | ⟨r, rest, i, -, -, rfl⟩ := step_next_cases h
  · rfl
  · rw [completed_cfg]

theorem step_pending {s t : State} (h : step s = .next t) : t.pending = s.pending.tail := by
  obtain ⟨hpending, rfl⟩ | ⟨r, rest, i, hpending, -, rfl⟩ := step_next_cases h
  · rw [hpending, List.tail_nil]
  · rw [completed_pending, hpending, List.tail_cons]

theorem step_keeps_inv {s t : State} (hinv : s.Inv) (h : step s = .next t) : t.Inv := by
  obtain ⟨-, rfl⟩ | ⟨r, rest, i, -, -, rfl⟩ := step_next_cases h
  · exact hinv
  · exact completed_inv i (s := { s with pending := rest }) hinv

/-- Progress: a step of a state whose requests are acceptable is never refused. -/
theorem step_completes {s : State} (h : Acceptable s.cfg s.pending) : ∃ t, step s = .next t := by
  cases hpending : s.pending with
  | nil => exact ⟨s, step_idle hpending⟩
  | cons r rest =>
    obtain ⟨i, hdecode, hbus⟩ := h r (by simp [hpending])
    refine ⟨completed i { s with pending := rest }, ?_⟩
    rw [step_of_decode hpending hdecode]
    exact exec_next_iff.2 ⟨decodeRequest_wf hdecode, hbus, rfl⟩

theorem step_keeps_acceptable {s t : State} (hacc : Acceptable s.cfg s.pending) (h : step s = .next t) :
    Acceptable t.cfg t.pending := by
  rw [step_cfg h, step_pending h]
  exact fun r hr => hacc r (List.mem_of_mem_tail hr)

/-! ### Runs -/

theorem runsTo_zero (s : State) : RunsTo 0 s s := rfl

theorem run_succ_of_step {M : Host.Core} {s t : M.State} (h : M.step s = .next t) (n : Nat) :
    M.run (n + 1) s = M.run n t := by
  rw [Host.Core.run, h]

theorem runsTo_succ {n : Nat} {s t u : State} (hstep : step s = .next t) (hrun : RunsTo n t u) :
    RunsTo (n + 1) s u :=
  (run_succ_of_step (M := Sys2Proof.core) hstep n).trans hrun

/-- What every step keeps and finds a next state under keeps a run of any length going, and holds where it ends. -/
theorem runsTo_of_progress {P : State → Prop} (hP : ∀ s, P s → ∃ t, step s = .next t ∧ P t) (n : Nat) {s : State}
    (h : P s) : ∃ t, RunsTo n s t ∧ P t := by
  induction n generalizing s with
  | zero => exact ⟨s, runsTo_zero s, h⟩
  | succ n ih =>
    obtain ⟨t, hstep, ht⟩ := hP s h
    obtain ⟨u, hrun, hu⟩ := ih ht
    exact ⟨u, runsTo_succ hstep hrun, hu⟩

/-- A state from which a run can go on: the invariant holds and every request still to come is acceptable. -/
def Runnable (s : State) : Prop :=
  s.Inv ∧ Acceptable s.cfg s.pending

theorem step_keeps_runnable (s : State) (h : Runnable s) : ∃ t, step s = .next t ∧ Runnable t := by
  obtain ⟨hinv, hacc⟩ := h
  obtain ⟨t, hstep⟩ := step_completes hacc
  exact ⟨t, hstep, step_keeps_inv hinv hstep, step_keeps_acceptable hacc hstep⟩

/-! ### The obligations -/

/-- Settles O1: the two matches of `step` are resolved by the hypotheses. -/
theorem stepRunsDecodedOperation : Obligations.StepRunsDecodedOperation :=
  fun _ _ _ _ hpending hdecode => step_of_decode hpending hdecode

/-- Settles O8: well-formedness and the bus unit are all that `exec` asks for. -/
theorem everyOperationCompletes : Obligations.EveryOperationCompletes :=
  fun s i hwf hbus => ⟨completed i s, exec_next_iff.2 ⟨hwf, hbus, rfl⟩⟩

/-- Settles O9, by induction on the number of steps with the invariant strengthened to `Runnable`. -/
theorem acceptableRunsNeverStop : Obligations.AcceptableRunsNeverStop := by
  intro s hinv hacc n
  obtain ⟨t, hrun, hinv', -⟩ := runsTo_of_progress step_keeps_runnable n ⟨hinv, hacc⟩
  exact ⟨t, hrun, hinv'⟩

end Sys2Proof.Machine
end

section
/-! PROOFS of the family 10_state: the invariant, which operation writes `CS` and with what, the direction code, and the
readings of a stick field and of a direction code. The layer below says what a PUSH operation does to `CS` in terms of
the packets it accepts; the theorems about `CS` and about the direction code go through it. -/

namespace Sys2Proof.Machine

/-! ### What a PUSH does, by the packets it accepts -/

/-- One PUSH either accepts a packet, projects it and clears the buffer, or accepts none and writes the buffer alone. -/
theorem pushByte_accepts_cases (b : Byte) (s : State) :
    (∃ p, pushByte b s = (s.clear.project p, true) ∧
        ∀ rest, acceptedPackets s.cfg s.buf (b :: rest) = p :: acceptedPackets s.cfg [] rest) ∨
      (∃ buf, pushByte b s = ({ s with buf := buf }, false) ∧
        ∀ rest, acceptedPackets s.cfg s.buf (b :: rest) = acceptedPackets s.cfg buf rest) := by
  by_cases hb : b = delim
  · subst hb
    rw [pushByte_delim]
    obtain ⟨p, hp, hpush⟩ | ⟨k, hk, hpush⟩ := pushDelim_cases s
    · exact .inl ⟨p, hpush, acceptedPackets_valid hp⟩
    · exact .inr ⟨[], hpush, acceptedPackets_invalid hk⟩
  · rw [pushByte_data hb]
    obtain ⟨hroom, hpush⟩ | ⟨hfull, hpush⟩ := pushData_cases b s
    · exact .inr ⟨s.buf ++ [b], hpush, acceptedPackets_append hb hroom⟩
    · exact .inr ⟨[], hpush, acceptedPackets_overflow hb hfull⟩

/-- A batch leaves the projection of the last packet it accepts, or `CS` as it was (41 R84). -/
theorem pushBytes_cs (seq : List Byte) (s : State) :
    (pushBytes seq s).1.cs = (acceptedPackets s.cfg s.buf seq).getLast?.elim s.cs (packetCS s.cfg) := by
  induction seq generalizing s with
  | nil => rfl
  | cons b rest ih =>
    rw [pushBytes_cons, ih]
    obtain ⟨p, hpush, hacc⟩ | ⟨buf, hpush, hacc⟩ := pushByte_accepts_cases b s
    · cases hlast : (acceptedPackets s.cfg [] rest).getLast? <;> simp [hpush, hacc, List.getLast?_cons, hlast]
    · simp [hpush, hacc]

/-- A batch answers whether it accepts a packet (41 R84). -/
theorem pushBytes_answer (seq : List Byte) (s : State) :
    (pushBytes seq s).2 = !(acceptedPackets s.cfg s.buf seq).isEmpty := by
  induction seq generalizing s with
  | nil => rfl
  | cons b rest ih =>
    rw [pushBytes_cons, ih]
    obtain ⟨p, hpush, hacc⟩ | ⟨buf, hpush, hacc⟩ := pushByte_accepts_cases b s <;> simp [hpush, hacc]

/-- The buffer after one PUSH, in terms of the buffer before it. -/
theorem pushByte_buf (b : Byte) (s : State) :
    (pushByte b s).1.buf = if b ≠ delim ∧ s.buf.length < s.cfg.bufMax then s.buf ++ [b] else [] := by
  by_cases hb : b = delim
  · subst hb
    rw [pushByte_delim]
    obtain ⟨p, -, hpush⟩ | ⟨k, -, hpush⟩ := pushDelim_cases s <;> simp [hpush]
  · rw [pushByte_data hb]
    obtain ⟨hroom, hpush⟩ | ⟨hfull, hpush⟩ := pushData_cases b s
    · simp [hpush, hb, hroom]
    · simp [hpush, Nat.not_lt.2 hfull]

/-- The buffer after a batch depends on the parameters and the buffer before it alone. -/
theorem pushBytes_buf_congr (seq : List Byte) {s t : State} (hcfg : s.cfg = t.cfg) (hbuf : s.buf = t.buf) :
    (pushBytes seq s).1.buf = (pushBytes seq t).1.buf := by
  induction seq generalizing s t with
  | nil => exact hbuf
  | cons b rest ih =>
    rw [pushBytes_cons, pushBytes_cons]
    exact ih (by simp [hcfg]) (by simp [pushByte_buf, hcfg, hbuf])

/-! ### The three PUSH operations as one -/

/-- The stream bytes that a PUSH operation carries; `completed_push` ties it to the machine. -/
def pushedBytes : Instr → List Byte
  | .pushDelim => [delim]
  | .pushData b => [b]
  | .pushN seq => seq
  | _ => []

theorem pushBytes_singleton (b : Byte) (s : State) : pushBytes [b] s = pushByte b s := by
  simp [pushBytes_cons]

theorem completed_push {i : Instr} (hpush : isPush i = true) (s : State) :
    completed i s = answerFrame (pushBytes (pushedBytes i) s) := by
  cases i with
  | pushDelim | pushData => simp [completed, pushedBytes, pushBytes_singleton]
  | pushN => rfl
  | _ => cases hpush

/-- A well-formed PUSH operation accepts the packets that its bytes complete; the byte of a PUSH.DATA completes none. -/
theorem acceptedBy_push {i : Instr} {s : State} (hpush : isPush i = true) (hwf : i.wf s.cfg = true) :
    acceptedBy i s = acceptedPackets s.cfg s.buf (pushedBytes i) := by
  cases i with
  | pushDelim | pushN => rfl
  | pushData b =>
    have hb : b ≠ delim := of_decide_eq_true hwf
    simp [acceptedBy, pushedBytes, acceptedPackets, hb]
  | _ => cases hpush

theorem completed_push_cs {i : Instr} {s : State} (hpush : isPush i = true) (hwf : i.wf s.cfg = true) :
    (completed i s).cs = (acceptedBy i s).getLast?.elim s.cs (packetCS s.cfg) := by
  rw [completed_push hpush, acceptedBy_push hpush hwf]
  exact pushBytes_cs _ s

theorem completed_push_results {i : Instr} {s : State} (hpush : isPush i = true) (hwf : i.wf s.cfg = true) :
    (completed i s).results = s.results ++ [.frameDecoded (!(acceptedBy i s).isEmpty)] := by
  rw [completed_push hpush, acceptedBy_push hpush hwf, ← pushBytes_answer]
  simp [answerFrame]

theorem completed_push_buf {i : Instr} (hpush : isPush i = true) (s : State) :
    (completed i s).buf = (pushBytes (pushedBytes i) s).1.buf := by
  rw [completed_push hpush, answerFrame_buf]

/-- A PUSH operation whose last accepted packet is `p` answers `true` and leaves the projection of `p`. -/
theorem completed_push_of_last {i : Instr} {s : State} {p : Packet} (hpush : isPush i = true)
    (hwf : i.wf s.cfg = true) (hlast : (acceptedBy i s).getLast? = some p) :
    (completed i s).results = s.results ++ [.frameDecoded true] ∧ (completed i s).cs = packetCS s.cfg p := by
  have hne : acceptedBy i s ≠ [] := fun h => by simp [h] at hlast
  simp [completed_push_results hpush hwf, completed_push_cs hpush hwf, hlast, hne]

/-- A PUSH operation that accepts no packet answers `false` and keeps `CS`. -/
theorem completed_push_of_none {i : Instr} {s : State} (hpush : isPush i = true)
    (hwf : i.wf s.cfg = true) (hnone : acceptedBy i s = []) :
    (completed i s).results = s.results ++ [.frameDecoded false] ∧ (completed i s).cs = s.cs := by
  simp [completed_push_results hpush hwf, completed_push_cs hpush hwf, hnone]

/-- A delimiter accepts the packet of the frame it ends, if that frame is valid (41 R82). -/
theorem acceptedBy_pushDelim_valid {s : State} {p : Packet} (h : frameVerdict s.cfg s.buf = .ok p) :
    acceptedBy .pushDelim s = [p] :=
  acceptedPackets_valid h []

theorem acceptedBy_pushDelim_invalid {s : State} {k : Cause} (h : frameVerdict s.cfg s.buf = .error k) :
    acceptedBy .pushDelim s = [] :=
  acceptedPackets_invalid h []

/-- Which packets an operation accepts does not depend on `CS`. -/
theorem acceptedBy_writeCS (i : Instr) (s : State) (v : CS) : acceptedBy i (s.writeCS v) = acceptedBy i s := by
  cases i <;> rfl

/-! ### Direction codes -/

/-- The nine directions in the order of 10_state R15, in which `readDir` searches them. -/
def allDirs : List Dir :=
  [.c, .u, .ur, .r, .dr, .d, .dl, .l, .ul]

theorem mem_allDirs (dir : Dir) : dir ∈ allDirs := by
  cases dir <;> decide

theorem toList_eq_map_dirCode (k : DpadCodes) : k.toList = allDirs.map (dirCode k) := rfl

theorem dirCode_mem_toList (k : DpadCodes) (dir : Dir) : dirCode k dir ∈ k.toList := by
  rw [toList_eq_map_dirCode]
  exact List.mem_map_of_mem (mem_allDirs dir)

/-- The code that BUS.BUTTON writes is the code of a direction, so it is defined. -/
theorem busDirCode_mem_toList (c : Config) (p : Payload) : busDirCode c p ∈ c.dpadCode.toList :=
  dirCode_mem_toList _ _

theorem admissible_dpadCode_nodup {c : Config} (h : c.admissible = true) : c.dpadCode.toList.Nodup := by
  simp only [Config.admissible, Bool.and_eq_true, decide_eq_true_eq] at h
  obtain ⟨⟨⟨⟨⟨-, hdpad⟩, -⟩, -⟩, -⟩, -⟩ := h
  exact hdpad

/-- Distinct codes name distinct directions. -/
theorem dirCode_injective {k : DpadCodes} (h : k.toList.Nodup) : Function.Injective (dirCode k) := by
  rw [toList_eq_map_dirCode] at h
  exact fun a b => List.inj_on_of_nodup_map h (mem_allDirs a) (mem_allDirs b)

/-- A code reads as the direction it stands for. -/
theorem readDir_dirCode {k : DpadCodes} (h : k.toList.Nodup) (dir : Dir) :
    readDir k (dirCode k dir) = .direction dir := by
  unfold readDir
  split
  · next found hfound =>
    have hcode : dirCode k found = dirCode k dir := by simpa using List.find?_some hfound
    rw [dirCode_injective h hcode]
  · next hnone =>
    exact absurd (decide_eq_true rfl) (List.find?_eq_none.1 hnone dir (mem_allDirs dir))

/-- A byte that is no direction's code reads as reserved. -/
theorem readDir_reserved {k : DpadCodes} {v : Byte} (h : v ∉ k.toList) : readDir k v = .reserved v := by
  unfold readDir
  split
  · next found hfound =>
    have hcode : dirCode k found = v := by simpa using List.find?_some hfound
    exact absurd (hcode ▸ dirCode_mem_toList k found) h
  · rfl

theorem exec_busButton_directionDefined {q : Payload} {s t : State} (h : exec (.busButton q) s = .next t) :
    directionDefined s.cfg t.cs := by
  obtain ⟨-, -, rfl⟩ := exec_next_iff.1 h
  exact busDirCode_mem_toList s.cfg q

/-- What a completed operation leaves as the direction code: that of the last packet it accepts; or, accepting none, the
code it found, unless it is BUS.BUTTON or PRESET. -/
theorem exec_dpad_cases {i : Instr} {s t : State} (h : exec i s = .next t) :
    (∃ p, (acceptedBy i s).getLast? = some p ∧ t.cs.dpad = p.dpad) ∨
      (acceptedBy i s = [] ∧
        (t.cs.dpad = s.cs.dpad ∨ (∃ q, i = .busButton q) ∨ (i = .pReset ∧ t.cs = s.cfg.csReset))) := by
  obtain ⟨hwf, -, rfl⟩ := exec_next_iff.1 h
  by_cases hpush : isPush i = true
  · cases hlast : (acceptedBy i s).getLast? with
    | some p => exact .inl ⟨p, rfl, by rw [(completed_push_of_last hpush hwf hlast).2]; rfl⟩
    | none =>
      have hnone : acceptedBy i s = [] := List.getLast?_eq_none_iff.1 hlast
      exact .inr ⟨hnone, .inl (by rw [(completed_push_of_none hpush hwf hnone).2])⟩
  · cases i with
    | pushDelim | pushData | pushN => exact absurd rfl hpush
    | pktUpdate p => exact .inl ⟨p, rfl, rfl⟩
    | busButton q => exact .inr ⟨rfl, .inr (.inl ⟨q, rfl⟩)⟩
    | pReset => exact .inr ⟨rfl, .inr (.inr ⟨rfl, rfl⟩)⟩
    | fReset | busAnalog | busIgnore | qButton | qDpad | qRaw => exact .inr ⟨rfl, .inl rfl⟩

/-! ### The obligations -/

/-- Settles O7, by the invariant's preservation under every completed operation. -/
theorem stepKeepsInvariant : Obligations.StepKeepsInvariant :=
  fun _ _ hinv hstep => step_keeps_inv hinv hstep

/-- Settles O37: the PUSH operations by the packets they accept, the others by the state they leave. -/
theorem canonicalStateWriters : Obligations.CanonicalStateWriters := by
  intro i s t h
  obtain ⟨hwf, -, rfl⟩ := exec_next_iff.1 h
  cases i with
  | pushDelim =>
    refine ⟨fun p hp => ?_, fun k hk => ?_⟩
    · exact completed_push_of_last rfl hwf (by rw [acceptedBy_pushDelim_valid hp]; rfl)
    · exact completed_push_of_none rfl hwf (acceptedBy_pushDelim_invalid hk)
  | pushData b => exact (completed_push_of_none rfl hwf rfl).2
  | pushN seq =>
    exact ⟨fun p hp => completed_push_of_last rfl hwf hp, fun hnone => completed_push_of_none rfl hwf hnone⟩
  | fReset | pktUpdate | busAnalog | busButton | busIgnore | qButton | qDpad | qRaw | pReset => rfl

/-- Settles O40: the packets accepted, which decide the answer and the write, depend on the parameters and the buffer
alone. -/
theorem framerDoesNotReadCanonicalState : Obligations.FramerDoesNotReadCanonicalState := by
  intro i s t v hpush h
  obtain ⟨hwf, hbus, rfl⟩ := exec_next_iff.1 h
  have hwf' : i.wf (s.writeCS v).cfg = true := hwf
  refine ⟨completed i (s.writeCS v), exec_next_iff.2 ⟨hwf', hbus, rfl⟩, ?_, ?_, ?_⟩
  · rw [completed_push_buf hpush, completed_push_buf hpush]
    exact pushBytes_buf_congr _ rfl rfl
  · rw [completed_push_results hpush hwf', completed_push_results hpush hwf, acceptedBy_writeCS, writeCS_results]
  · rw [completed_push_cs hpush hwf', completed_push_cs hpush hwf, acceptedBy_writeCS]
    cases (acceptedBy i s).getLast? with
    | none => exact .inr ⟨rfl, rfl⟩
    | some p => exact .inl rfl

/-- Settles O49, by where the direction code of the next state comes from. -/
theorem directionInvariantAndItsLimit : Obligations.DirectionInvariantAndItsLimit := by
  intro i s t h hreset
  have hbusButton : ∀ q, i = .busButton q → directionDefined s.cfg t.cs :=
    fun q hi => exec_busButton_directionDefined (hi ▸ h)
  obtain ⟨p, hlast, hdpad⟩ | ⟨hnone, hdpad⟩ := exec_dpad_cases h
  · have hiff : directionDefined s.cfg t.cs ↔ p.dpad ∈ s.cfg.dpadCode.toList := by rw [directionDefined, hdpad]
    refine ⟨fun hall _ => hiff.2 (hall p (List.mem_of_getLast? hlast)), fun p' hlast' => ?_, hbusButton⟩
    rwa [← Option.some.inj (hlast.symm.trans hlast')]
  · refine ⟨fun _ hs => ?_, fun p' hlast' => by simp [hnone] at hlast', hbusButton⟩
    obtain hkept | ⟨q, hi⟩ | ⟨hi, hparam⟩ := hdpad
    · rwa [directionDefined, hkept]
    · exact hbusButton q hi
    · exact hparam ▸ hreset hi

/-- Settles O58: the codes are distinct, so the first direction with a code is the one it stands for. -/
theorem directionReading : Obligations.DirectionReading := by
  intro c hadm
  have hread := readDir_dirCode (admissible_dpadCode_nodup hadm)
  refine ⟨rfl, ?_, hread, fun v hv => readDir_reserved hv⟩
  exact List.map_congr_left (l := allDirs) (f := readDir c.dpadCode ∘ dirCode c.dpadCode) fun dir _ => hread dir

/-- Settles O5, by reading the definitions of the reset state and of the default parameters. -/
theorem resetState : Obligations.ResetState :=
  ⟨rfl, rfl, rfl, rfl, rfl, rfl⟩

/-- Settles O6: the default parameters are admissible and an empty buffer is in canonical form. -/
theorem resetMeetsInvariant : Obligations.ResetMeetsInvariant :=
  ⟨by decide, reset_buf_wf⟩

/-- Settles O48: with the BUS unit the operation completes, and it writes the code of a direction. -/
theorem busButtonDirectionIsDefined : Obligations.BusButtonDirectionIsDefined := by
  intro s p hport
  have hexec : exec (.busButton p) s = .next (completed (.busButton p) s) :=
    exec_next_iff.2 ⟨rfl, fun _ => hport, rfl⟩
  exact ⟨_, hexec, exec_busButton_directionDefined hexec⟩

/-- A stick field by the cases of its sign bit (10_state R12). -/
theorem stickValue_eq (v : Byte) :
    stickValue v = if v.toNat < 128 then (v.toNat : Int) else (v.toNat : Int) - 256 := by
  unfold stickValue
  rw [BitVec.toInt_eq_toNat_cond]
  split <;> split <;> omega

/-- Settles O59: the bounds follow from the two cases, since a byte is below 256. -/
theorem stickReading : Obligations.StickReading := by
  refine ⟨stickValue_eq, fun v => ?_, rfl, rfl, rfl, rfl, rfl⟩
  have hv : v.toNat < 256 := v.isLt
  rw [stickValue_eq]
  split <;> omega

end Sys2Proof.Machine
end

section
/-! PROOFS of the family 30_encoding: the decoder and the encoder are inverse to each other on well-formed operations,
the checksum is the exclusive-or of the bytes before it, and what is no operation is refused. The layer below says once
what each format's decoder answers and what its encoding decodes to; the theorems go through it. -/

namespace Sys2Proof.Machine

/-! ### The exclusive-or of a sequence -/

theorem xor8_cons (b : Byte) (s : List Byte) : xor8 (b :: s) = s.foldl (· ^^^ ·) b :=
  congrArg (s.foldl (· ^^^ ·)) BitVec.zero_xor

theorem xor8_concat (s : List Byte) (b : Byte) : xor8 (s ++ [b]) = xor8 s ^^^ b := by
  rw [xor8, List.foldl_concat, ← xor8]

/-- A last byte is the exclusive-or of the bytes before it exactly when it cancels them. -/
theorem xor8_concat_eq_zero_iff (s : List Byte) (b : Byte) : xor8 (s ++ [b]) = 0 ↔ b = xor8 s := by
  rw [xor8_concat, eq_comm (a := b)]
  exact BitVec.xor_eq_zero_iff

/-! ### PKT11 -/

/-- With the right header, the checksum check alone decides (43 R102). -/
theorem decodePacket_header (c : Config) (p : Packet) (chk : Byte) :
    decodePacket c (c.header :: p.body ++ [chk]) =
      if chk = xor8 (c.header :: p.body) then .ok p else .error .checksum :=
  (if_neg (not_not.2 rfl)).trans (ite_not _ _ _)

theorem decodePacket_encodePacket (c : Config) (p : Packet) : decodePacket c (encodePacket c p) = .ok p := by
  rw [encodePacket, decodePacket_header, if_pos rfl]

/-- The decoder accepts no other bytes for a packet than its encoding (30_encoding R53, R62). -/
theorem encodePacket_of_decodePacket {c : Config} {bytes : List Byte} {p : Packet}
    (h : decodePacket c bytes = .ok p) : bytes = encodePacket c p := by
  unfold decodePacket at h
  split at h
  · split at h
    · cases h
    · next hheader =>
      split at h
      · cases h
      · next hchecksum =>
        cases h
        rw [not_not] at hheader hchecksum
        rw [hchecksum, hheader]
        rfl
  · cases h

/-! ### BUSMSG -/

@[simp] theorem ofList_toList (p : Payload) : Payload.ofList p.toList = some p := rfl

theorem toList_of_ofList {l : List Byte} {p : Payload} (h : Payload.ofList l = some p) : p.toList = l := by
  unfold Payload.ofList at h
  split at h
  · cases h; rfl
  · cases h

/-- A payload is eight bytes (30_encoding R55): any eight, and no other number of them. -/
theorem ofList_isSome_iff (l : List Byte) : (Payload.ofList l).isSome = true ↔ l.length = busPayloadLen := by
  constructor
  · intro h
    obtain ⟨p, hp⟩ := Option.isSome_iff_exists.1 h
    rw [← toList_of_ofList hp]
    rfl
  · intro h
    match l, h with
    | [_, _, _, _, _, _, _, _], _ => rfl

theorem decodeBus_analog (c : Config) (p : Payload) : decodeBus c c.analogId p = .busAnalog p :=
  if_pos rfl

theorem decodeBus_button {c : Config} (hids : c.analogId ≠ buttonId) (p : Payload) :
    decodeBus c buttonId p = .busButton p := by
  rw [decodeBus, if_neg hids.symm, if_pos rfl]

theorem decodeBus_ignore {c : Config} {id : Nat} (hanalog : id ≠ c.analogId) (hbutton : id ≠ buttonId) (p : Payload) :
    decodeBus c id p = .busIgnore id p := by
  rw [decodeBus, if_neg hanalog, if_neg hbutton]

theorem encode_decodeBus (c : Config) (id : Nat) (p : Payload) :
    encode c (decodeBus c id p) = .request (.busMsg id p.toList) := by
  unfold decodeBus
  split
  · next hanalog => rw [hanalog]; rfl
  · split
    · next hbutton => rw [hbutton]; rfl
    · rfl

/-- The two recognised identifiers are distinct numbers of `ID_WIDTH` bits (00_scope R5). -/
theorem admissible_busIds {c : Config} (h : c.admissible = true) :
    c.analogId < 2 ^ c.idWidth ∧ buttonId < 2 ^ c.idWidth ∧ c.analogId ≠ buttonId := by
  simp only [Config.admissible, Bool.and_eq_true, decide_eq_true_eq] at h
  obtain ⟨⟨⟨-, hwidth⟩, hanalog⟩, hids⟩ := h
  have hbutton : buttonId < 2 ^ 6 := by decide
  exact ⟨hanalog, hbutton.trans_le (Nat.pow_le_pow_right (by decide) hwidth), hids⟩

/-! ### Requests -/

theorem decodeByte_data {b : Byte} (hb : b ≠ delim) : decodeByte b = .pushData b :=
  if_neg hb

theorem encode_decodeByte (c : Config) (b : Byte) : encode c (decodeByte b) = .request (.push b) := by
  unfold decodeByte
  split
  · next hb => rw [hb]; rfl
  · rfl

theorem decodeRequest_busMsg {c : Config} {id : Nat} (hid : id < 2 ^ c.idWidth) (p : Payload) :
    decodeRequest c (.busMsg id p.toList) = .ok (decodeBus c id p) := by
  simp only [decodeRequest, ofList_toList, if_pos hid]

theorem decodeRequest_busMsg_badLength (c : Config) (id : Nat) {payload : List Byte}
    (h : payload.length ≠ busPayloadLen) : decodeRequest c (.busMsg id payload) = .error .payloadLength := by
  have hnone : Payload.ofList payload = none := Option.not_isSome_iff_eq_none.1 (mt (ofList_isSome_iff payload).1 h)
  simp only [decodeRequest, hnone]

theorem decodeRequest_busMsg_wide {c : Config} {id : Nat} {payload : List Byte}
    (hlen : payload.length = busPayloadLen) (hid : 2 ^ c.idWidth ≤ id) :
    decodeRequest c (.busMsg id payload) = .error .idTooWide := by
  obtain ⟨p, hp⟩ := Option.isSome_iff_exists.1 ((ofList_isSome_iff payload).2 hlen)
  simp only [decodeRequest, hp, if_neg (Nat.not_lt.2 hid)]

theorem decodeRequest_qButton (c : Config) (i : Fin 16) : decodeRequest c (.qButton i) = .ok (.qButton i) :=
  dif_pos i.isLt

theorem decodeRequest_qButton_large (c : Config) {i : Nat} (h : 16 ≤ i) :
    decodeRequest c (.qButton i) = .error .buttonIndex :=
  dif_neg (Nat.not_lt.2 h)

/-- What a request decodes to has that request as its written form (30_encoding R61). -/
theorem encode_of_decodeRequest {c : Config} {r : Request} {i : Instr} (h : decodeRequest c r = .ok i) :
    encode c i = .request r := by
  cases r with
  | push b => cases h; exact encode_decodeByte c b
  | busMsg id payload =>
    obtain ⟨p, hp, -, rfl⟩ := decodeRequest_busMsg_ok h
    rw [encode_decodeBus, toList_of_ofList hp]
  | qButton n =>
    by_cases hn : n < 16
    · rw [decodeRequest_qButton c ⟨n, hn⟩] at h
      cases h; rfl
    · rw [decodeRequest_qButton_large c (Nat.not_lt.1 hn)] at h
      cases h
  | pushN | fReset | qDpad | qRaw | pReset => cases h; rfl

/-! ### Written forms -/

theorem decode_packet (c : Config) (p : Packet) : decode c (.packet (encodePacket c p)) = .ok (.pktUpdate p) := by
  simp only [decode, decodePacket_encodePacket]

theorem decode_packet_ok {c : Config} {bytes : List Byte} {i : Instr} (h : decode c (.packet bytes) = .ok i) :
    ∃ p, bytes = encodePacket c p ∧ i = .pktUpdate p := by
  simp only [decode] at h
  split at h
  · next p hp => exact ⟨p, encodePacket_of_decodePacket hp, (Except.ok.inj h).symm⟩
  · cases h

/-! ### Refusals -/

theorem step_of_reject {s : State} {r : Request} {rest : List Request} {why : Reject}
    (hpending : s.pending = r :: rest) (hdecode : decodeRequest s.cfg r = .error why) :
    step s = .refused (.rejected why) := by
  simp only [step, hpending, hdecode]

/-- `exec` refuses every term that is not well formed (log entry 19). -/
theorem exec_illFormed {i : Instr} {s : State} (h : ¬ i.wf s.cfg = true) : exec i s = .refused .illFormed := by
  cases i with
  | pushData b => exact if_pos (not_not.1 (mt decide_eq_true h))
  | busIgnore id p => exact if_neg h
  | pushDelim | pushN | fReset | pktUpdate | busAnalog | busButton | qButton | qDpad | qRaw | pReset =>
    exact absurd rfl h

theorem busIgnore_wf_iff {c : Config} {id : Nat} {p : Payload} :
    (Instr.busIgnore id p).wf c = true ↔ id < 2 ^ c.idWidth ∧ id ≠ c.analogId ∧ id ≠ buttonId :=
  decide_eq_true_iff

/-! ### The obligations -/

/-- Settles O12, by cases on the operation: each format's decoder undoes its encoder. -/
theorem decodeOfEncode : Obligations.DecodeOfEncode := by
  intro c i hadm hwf
  obtain ⟨hanalog, hbutton, hids⟩ := admissible_busIds hadm
  cases i with
  | pushData b => exact congrArg Except.ok (decodeByte_data (of_decide_eq_true hwf))
  | pktUpdate p => exact decode_packet c p
  | busAnalog p => exact (decodeRequest_busMsg hanalog p).trans (congrArg _ (decodeBus_analog c p))
  | busButton p => exact (decodeRequest_busMsg hbutton p).trans (congrArg _ (decodeBus_button hids p))
  | busIgnore id p =>
    obtain ⟨hid, hneAnalog, hneButton⟩ := busIgnore_wf_iff.1 hwf
    exact (decodeRequest_busMsg hid p).trans (congrArg _ (decodeBus_ignore hneAnalog hneButton p))
  | qButton n => exact decodeRequest_qButton c n
  | pushDelim | pushN | fReset | qDpad | qRaw | pReset => rfl

/-- Settles O17: the eleventh byte is the last one, and it cancels the ten before it exactly when it is their
exclusive-or. -/
theorem checksumCheckIsZeroTest : Obligations.ChecksumCheckIsZeroTest := by
  intro pkt hlen
  have hlast : 10 < pkt.length := by omega
  have hsplit : pkt.take 10 ++ [pkt[10]] = pkt := by
    rw [List.take_append_getElem, List.take_of_length_le hlen.le]
  calc pkt[10]? = some (xor8 (pkt.take 10))
      ↔ pkt[10] = xor8 (pkt.take 10) := by rw [List.getElem?_eq_getElem hlast, Option.some_inj]
    _ ↔ xor8 (pkt.take 10 ++ [pkt[10]]) = 0 := (xor8_concat_eq_zero_iff _ _).symm
    _ ↔ xor8 pkt = 0 := by rw [hsplit]

/-- Settles O3: the decoder rejects each of the three requests, and a step refuses what the decoder rejects. -/
theorem stepRefusesNonOperations : Obligations.StepRefusesNonOperations :=
  fun s _ =>
    ⟨fun id _ hpending hlen => step_of_reject hpending (decodeRequest_busMsg_badLength s.cfg id hlen),
      fun _ _ hpending hlen hid => step_of_reject hpending (decodeRequest_busMsg_wide hlen hid),
      fun _ hpending hi => step_of_reject hpending (decodeRequest_qButton_large s.cfg hi)⟩

/-- Settles O10: neither term is well formed. -/
theorem illFormedTermsAreRefused : Obligations.IllFormedTermsAreRefused := by
  refine fun s => ⟨exec_illFormed (i := .pushData 0) Bool.false_ne_true, fun id p hid => exec_illFormed fun hwf => ?_⟩
  obtain ⟨hwidth, hneAnalog, hneButton⟩ := busIgnore_wf_iff.1 hwf
  obtain hwide | hanalog | hbutton := hid
  · exact absurd hwidth (Nat.not_lt.2 hwide)
  · exact hneAnalog hanalog
  · exact hneButton hbutton

/-- Settles O13, by cases on the written form: a caller's request, or the bytes of a packet. -/
theorem encodeOfDecode : Obligations.EncodeOfDecode := by
  intro c e i h
  cases e with
  | request r => exact encode_of_decodeRequest h
  | packet bytes =>
    obtain ⟨p, rfl, rfl⟩ := decode_packet_ok h
    rfl

/-- Settles O14: a packet has no operand constraint, and a request decodes to a well-formed operation. -/
theorem decodedIsWellFormed : Obligations.DecodedIsWellFormed := by
  intro c e i h
  cases e with
  | request r => exact decodeRequest_wf h
  | packet bytes =>
    obtain ⟨p, -, rfl⟩ := decode_packet_ok h
    rfl

/-- Settles O15, by running the decoder on the seven words. -/
theorem sampleWordsDecode : Obligations.SampleWordsDecode :=
  ⟨rfl, rfl, rfl, rfl, rfl, rfl, rfl⟩

/-- Settles O16: an accepted packet is an encoding, and byte 10 of an encoding is the exclusive-or by definition. -/
theorem checksumIsExclusiveOr : Obligations.ChecksumIsExclusiveOr := by
  have haccepted : ∀ (c : Config) (b0 b1 b2 b3 b4 b5 b6 b7 b8 b9 chk : Byte) (p : Packet),
      decodePacket c [b0, b1, b2, b3, b4, b5, b6, b7, b8, b9, chk] = .ok p →
        chk = b0 ^^^ b1 ^^^ b2 ^^^ b3 ^^^ b4 ^^^ b5 ^^^ b6 ^^^ b7 ^^^ b8 ^^^ b9 := by
    intro c b0 b1 b2 b3 b4 b5 b6 b7 b8 b9 chk p h
    cases encodePacket_of_decodePacket h
    exact xor8_cons c.header p.body
  refine ⟨fun c p => congrArg some (xor8_cons c.header p.body), haccepted, ?_, fun c p chk h => ?_⟩
  · rintro c _ b1 b2 b3 b4 b5 b6 b7 b8 b9 chk rfl hne
    have hcheck := decodePacket_header c ⟨b1, b2, b3, b4, b5, b6, b7, b8, b9⟩ chk
    exact hcheck.trans (if_neg fun heq => hne (heq.trans (xor8_cons _ _)))
  · exact haccepted _ _ _ _ _ _ _ _ _ _ _ _ p h

end Sys2Proof.Machine
end

section
/-! PROOFS of the family 40_bus_frame_decoder: what the three bus operations write and answer, that they are idempotent,
commute and leave the framer alone, and that a packet overwrites them. The layer below says once what a bit of the
button register is after BUS.BUTTON (`getLsbD_busButtons`) and what a bus operation does to the state
(`completed_bus`); the theorems go through these two. -/

namespace Sys2Proof.Machine

/-! ### The button register after BUS.BUTTON -/

/-- The named button that decides bit `j`. Where two share the bit it is the later one (log entry 6), so the search runs
backwards; `getLsbD_busButtons` ties it to the machine. -/
def buttonAt (k : ButtonBits) (j : Fin 16) : Option Button :=
  allButtons.reverse.find? (fun b => buttonBit k b = j)

theorem mem_allButtons (b : Button) : b ∈ allButtons := by
  cases b <;> decide

theorem toList_eq_map_buttonBit (k : ButtonBits) : k.toList = allButtons.map (buttonBit k) := rfl

theorem buttonBit_mem_toList (k : ButtonBits) (b : Button) : buttonBit k b ∈ k.toList := by
  rw [toList_eq_map_buttonBit]
  exact List.mem_map_of_mem (mem_allButtons b)

/-- Distinct positions belong to distinct buttons. -/
theorem buttonBit_injective {k : ButtonBits} (h : k.toList.Nodup) : Function.Injective (buttonBit k) := by
  rw [toList_eq_map_buttonBit] at h
  exact fun a b => List.inj_on_of_nodup_map h (mem_allButtons a) (mem_allButtons b)

theorem admissible_btnBit_nodup {c : Config} (h : c.admissible = true) : c.btnBit.toList.Nodup := by
  simp only [Config.admissible, Bool.and_eq_true, decide_eq_true_eq] at h
  obtain ⟨⟨⟨⟨-, hbtn⟩, -⟩, -⟩, -⟩ := h
  exact hbtn

theorem buttonBit_of_buttonAt {k : ButtonBits} {j : Fin 16} {b : Button} (h : buttonAt k j = some b) :
    buttonBit k b = j := by
  simpa using List.find?_some h

theorem buttonAt_eq_none {k : ButtonBits} {j : Fin 16} (h : j ∉ k.toList) : buttonAt k j = none := by
  cases hfound : buttonAt k j with
  | none => rfl
  | some b => exact absurd (buttonBit_of_buttonAt hfound ▸ buttonBit_mem_toList k b) h

theorem buttonAt_buttonBit {k : ButtonBits} (h : k.toList.Nodup) (b : Button) :
    buttonAt k (buttonBit k b) = some b := by
  cases hfound : buttonAt k (buttonBit k b) with
  | some b' => rw [buttonBit_injective h (buttonBit_of_buttonAt hfound)]
  | none =>
    have hmem : b ∈ allButtons.reverse := List.mem_reverse.2 (mem_allButtons b)
    exact absurd (decide_eq_true rfl) (List.find?_eq_none.1 hfound b hmem)

/-- A bit after a sequence of `setBit`: the last one at that position decides it. -/
theorem getLsbD_foldl_setBit {α : Type} (pos : α → Fin 16) (val : α → Bool) (l : List α) (v : Half) (j : Fin 16) :
    (l.foldl (fun v b => setBit v (pos b) (val b)) v).getLsbD j =
      (l.reverse.find? (fun b => pos b = j)).elim (v.getLsbD j) val := by
  induction l generalizing v with
  | nil => rfl
  | cons b rest ih =>
    rw [List.foldl_cons, ih, getLsbD_setBit, List.reverse_cons, List.find?_append]
    cases rest.reverse.find? (fun b => pos b = j) with
    | some last => rfl
    | none =>
      obtain rfl | hne := eq_or_ne j (pos b)
      · simp
      · simp [hne, hne.symm]

/-- A bit of the register that BUS.BUTTON writes: that of its button, or, of no button, cleared or kept (40 R72, D11). -/
theorem getLsbD_busButtons (c : Config) (p : Payload) (old : Half) (j : Fin 16) :
    (busButtons c p old).getLsbD j =
      (buttonAt c.btnBit j).elim (decide (c.busBtnHi = .preserve) && old.getLsbD j) (busPressed p) := by
  rw [busButtons, getLsbD_foldl_setBit, buttonAt]
  cases c.busBtnHi <;> simp

/-- BUS.BUTTON writes over its own register what it wrote, whatever the positions are. -/
theorem busButtons_idempotent (c : Config) (p : Payload) (old : Half) :
    busButtons c p (busButtons c p old) = busButtons c p old := by
  refine BitVec.eq_of_getLsbD_eq fun i hi => ?_
  have hbit := fun v => getLsbD_busButtons c p v ⟨i, hi⟩
  rw [hbit, hbit]
  cases buttonAt c.btnBit ⟨i, hi⟩ with
  | some b => rfl
  | none => simp

/-! ### What a bus operation does -/

/-- The value of `CS` that a bus operation writes over `v`; BUS.IGNORE writes none. `completed_bus` ties it to the
machine. -/
def busCS (c : Config) : Instr → CS → CS
  | .busAnalog p, v => analogCS p v
  | .busButton p, v => buttonCS c p v
  | _, v => v

/-- Whether a bus operation answers that it decoded its message (40 R70); `completed_bus` ties it to the machine. -/
def busDecoded : Instr → Bool
  | .busIgnore _ _ => false
  | _ => true

/-- A bus operation writes `CS` and answers, and does nothing else. -/
theorem completed_bus {i : Instr} (hbus : isBusOperation i = true) (s : State) :
    completed i s = (s.writeCS (busCS s.cfg i s.cs)).respond (.decoded (busDecoded i)) := by
  cases i with
  | busAnalog | busButton | busIgnore => rfl
  | _ => cases hbus

theorem busCS_idempotent (c : Config) (i : Instr) (v : CS) : busCS c i (busCS c i v) = busCS c i v := by
  cases i with
  | busButton p => simp only [busCS, buttonCS, busButtons_idempotent]
  | _ => rfl

/-- The two messages write disjoint fields, and neither reads a field that the other writes. -/
theorem analogCS_buttonCS_comm (c : Config) (p q : Payload) (v : CS) :
    analogCS p (buttonCS c q v) = buttonCS c q (analogCS p v) := rfl

/-- On a block that has the BUS unit a well-formed operation completes. -/
theorem exec_of_busPort {i : Instr} {s : State} (hwf : i.wf s.cfg = true) (hport : s.cfg.hasBusPort = true) :
    exec i s = .next (completed i s) :=
  exec_next_iff.2 ⟨hwf, fun _ => hport, rfl⟩

theorem withBusPort_absent {s : State} (h : s.cfg.hasBusPort = false) (after : State) :
    withBusPort s after = .refused .noBusPort :=
  if_neg (by simp [h])

/-- On a block without the BUS unit every well-formed bus operation is refused (40 R76). -/
theorem exec_bus_absent {i : Instr} {s : State} (hbus : isBusOperation i = true) (hwf : i.wf s.cfg = true)
    (habsent : s.cfg.hasBusPort = false) : exec i s = .refused .noBusPort := by
  cases i with
  | busAnalog | busButton => exact withBusPort_absent habsent _
  | busIgnore id p => exact (if_pos hwf).trans (withBusPort_absent habsent _)
  | _ => cases hbus

/-! ### The obligations -/

/-- Settles O45: the button at each position is the one `BTN_BIT` puts there, since the positions are distinct. -/
theorem busButtonWritesButtonsAndDirection : Obligations.BusButtonWritesButtonsAndDirection := by
  intro s p hadm hport
  have hnamed : ∀ b : Button,
      (busButtons s.cfg p s.cs.btn).getLsbD (buttonBit s.cfg.btnBit b) = busPressed p b := fun b => by
    rw [getLsbD_busButtons, buttonAt_buttonBit (admissible_btnBit_nodup hadm)]
    rfl
  refine ⟨busButtons s.cfg p s.cs.btn, exec_of_busPort (i := .busButton p) rfl hport,
    hnamed .facePrimary, hnamed .faceSecondary, hnamed .faceTertiary, hnamed .faceQuaternary,
    hnamed .aux0, hnamed .aux1, hnamed .aux2, hnamed .aux3, hnamed .aux4, hnamed .aux5, fun i hi => ?_⟩
  rw [getLsbD_busButtons, buttonAt_eq_none hi]
  rfl

/-- Settles O50: the second write of `CS` finds what the first one left. -/
theorem busMessageIsIdempotent : Obligations.BusMessageIsIdempotent := by
  intro i s t hbus h
  obtain ⟨hwf, hport, rfl⟩ := exec_next_iff.1 h
  have hagain : exec i (completed i s) = .next (completed i (completed i s)) :=
    exec_next_iff.2 ⟨by rwa [completed_cfg], by rwa [completed_cfg], rfl⟩
  refine ⟨.decoded (busDecoded i), by simp [completed_bus hbus], hagain.trans (congrArg _ ?_)⟩
  apply state_eq <;> simp [completed_bus hbus, busCS_idempotent]

/-- Settles O11: all three are bus operations, and the hypotheses on the identifier make BUS.IGNORE well formed. -/
theorem busAbsentIsRefused : Obligations.BusAbsentIsRefused :=
  fun _ _ _ habsent =>
    ⟨exec_bus_absent rfl rfl habsent, exec_bus_absent rfl rfl habsent,
      fun hid hneAnalog hneButton => exec_bus_absent rfl (busIgnore_wf_iff.2 ⟨hid, hneAnalog, hneButton⟩) habsent⟩

/-- Settles O44: the operation completes, and `analogCS` writes these six fields. -/
theorem busAnalogWritesSixFields : Obligations.BusAnalogWritesSixFields :=
  fun _ p hport => exec_of_busPort (i := .busAnalog p) rfl hport

/-- Settles O46: the operation is well formed, so it completes, and all it leaves is its answer. -/
theorem busIgnoreTouchesNothing : Obligations.BusIgnoreTouchesNothing :=
  fun _ id p hport hid hneAnalog hneButton =>
    exec_of_busPort (i := .busIgnore id p) (busIgnore_wf_iff.2 ⟨hid, hneAnalog, hneButton⟩) hport

/-- Settles O47, by running the rule on the sixteen nibbles. -/
theorem dpadRuleTable : Obligations.DpadRuleTable :=
  rfl

/-- Settles O51: both orders complete, and the two writes of `CS` commute. -/
theorem busMessagesCommute : Obligations.BusMessagesCommute := by
  intro s p q hport
  have hcomm : completed (.busButton q) (completed (.busAnalog p) s) =
      completed (.busAnalog p) (completed (.busButton q) s) := by
    apply state_eq <;> simp [completed, analogCS_buttonCS_comm]
  refine ⟨completed (.busAnalog p) s, completed (.busButton q) s, _, exec_of_busPort rfl hport,
    exec_of_busPort rfl ?_, exec_of_busPort rfl hport, hcomm ▸ exec_of_busPort rfl ?_⟩
  · rwa [completed_cfg]
  · rwa [completed_cfg]

/-- Settles O52: what a bus operation writes and answers comes from the parameters, the operand and `CS`. -/
theorem busIsIndependentOfFramer : Obligations.BusIsIndependentOfFramer := by
  intro i s t hbus h
  obtain ⟨hwf, hport, rfl⟩ := exec_next_iff.1 h
  refine ⟨by simp [completed_bus hbus], fun m => exec_next_iff.2 ⟨hwf, hport, ?_⟩⟩
  apply state_eq <;> simp [completed_bus hbus]

/-- Settles O53: the projection reads the packet and the parameters alone, and a bus operation keeps the parameters. -/
theorem packetOverwritesBusMessages : Obligations.PacketOverwritesBusMessages := by
  intro i s t p _ h
  obtain ⟨-, -, rfl⟩ := exec_next_iff.1 h
  refine ⟨(completed i s).project p, s.project p, rfl, rfl, ?_⟩
  rw [project_cs, project_cs, completed_cfg]

end Sys2Proof.Machine
end

section
/-! PROOFS of the family 41_stream_framer: what a frame does when its bytes are pushed into the framer, one by one or as
a batch. The layer below says once when a frame is valid (`frameVerdict_ok_iff`), what a batch that ends in a delimiter
does (`pushBytes_frame`), how a batch relates to a run of single PUSH operations (`runsTo_pushes`), and that the escape
coding meets 42 R91 (`esc_meets`); the theorems go through these. -/

namespace Sys2Proof.Machine

/-! ### The default coding meets 42 R91 -/

theorem cobsCode_toNat {block : List Byte} (h : block.length ≤ 254) :
    (BitVec.ofNat 8 (block.length + 1)).toNat = block.length + 1 := by
  rw [BitVec.toNat_ofNat, Nat.mod_eq_of_lt (by omega)]

theorem cobsCode_ne_zero {block : List Byte} (h : block.length ≤ 254) : BitVec.ofNat 8 (block.length + 1) ≠ 0 := by
  intro hzero
  have := congrArg BitVec.toNat hzero
  rw [cobsCode_toNat h] at this
  exact Nat.succ_ne_zero _ this

/-- Only a block of 254 data bytes has the code 0xFF (42 R92). -/
theorem cobsCode_eq_ff_iff {block : List Byte} (h : block.length ≤ 254) :
    BitVec.ofNat 8 (block.length + 1) = 0xFF ↔ block.length = 254 := by
  rw [← BitVec.toNat_inj, cobsCode_toNat h]
  exact Nat.succ_inj (b := 254)

/-- Decoding one block puts out its data bytes, and a zero unless the block is full or the last one (42 R93). -/
theorem cobsBlocks_cobsBlock {block : List Byte} (h : block.length ≤ 254) (fuel : Nat) (tail out : List Byte) :
    cobsBlocks (fuel + 1) (cobsBlock block ++ tail) out =
      if block.length ≠ 254 ∧ tail ≠ [] then cobsBlocks fuel tail (out ++ block ++ [0])
      else cobsBlocks fuel tail (out ++ block) := by
  have hroom : ¬ (block ++ tail).length < block.length := by simp
  have htail : block.length < (block ++ tail).length ↔ tail ≠ [] := by
    rw [List.length_append, Nat.lt_add_right_iff_pos, List.length_pos_iff]
  rw [cobsBlock, List.cons_append, cobsBlocks]
  simp only [cobsCode_toNat h, Nat.add_sub_cancel, if_neg (cobsCode_ne_zero h), if_neg hroom, List.drop_left,
    List.take_left, ne_eq, cobsCode_eq_ff_iff h, htail]

theorem cobsEncodeFrom_ne_nil (block rest : List Byte) : cobsEncodeFrom block rest ≠ [] := by
  fun_induction cobsEncodeFrom block rest with
  | case1 block => exact List.cons_ne_nil _ _
  | case2 block rest ih => exact List.append_ne_nil_of_right_ne_nil _ ih
  | case3 block x rest _ _ ih => exact List.append_ne_nil_of_right_ne_nil _ ih
  | case4 block x rest _ _ ih => exact ih

theorem cobsBlock_zeroFree {block : List Byte} (hlen : block.length ≤ 254) (hz : ∀ b ∈ block, b ≠ delim) :
    ∀ b ∈ cobsBlock block, b ≠ delim :=
  List.forall_mem_cons.2 ⟨cobsCode_ne_zero hlen, hz⟩

theorem cobsEncodeFrom_zeroFree {block : List Byte} (rest : List Byte) (hlen : block.length ≤ 253)
    (hz : ∀ b ∈ block, b ≠ delim) : ∀ b ∈ cobsEncodeFrom block rest, b ≠ delim := by
  have hnil : ∀ b ∈ ([] : List Byte), b ≠ delim := List.forall_mem_nil _
  have hconcat : ∀ {block : List Byte} {x : Byte}, (∀ b ∈ block, b ≠ delim) → ¬ x = 0 →
      ∀ b ∈ block ++ [x], b ≠ delim :=
    fun hz hx => List.forall_mem_append.2 ⟨hz, List.forall_mem_singleton.2 hx⟩
  fun_induction cobsEncodeFrom block rest with
  | case1 block => exact cobsBlock_zeroFree (by omega) hz
  | case2 block rest ih =>
    exact List.forall_mem_append.2 ⟨cobsBlock_zeroFree (by omega) hz, ih (by simp) hnil⟩
  | case3 block x rest hx hfull ih =>
    exact List.forall_mem_append.2 ⟨cobsBlock_zeroFree (by simp [hfull]) (hconcat hz hx), ih (by simp) hnil⟩
  | case4 block x rest hx hfull ih => exact ih (by simp; omega) (hconcat hz hx)

/-- A block takes at least its code byte, so fuel for it and for what follows leaves fuel for what follows. -/
theorem fuel_after_cobsBlock {block tail : List Byte} {fuel : Nat} (h : (cobsBlock block ++ tail).length ≤ fuel) :
    ∃ k, fuel = k + 1 ∧ tail.length ≤ k := by
  rw [cobsBlock, List.length_append, List.length_cons] at h
  exact ⟨fuel - 1, by omega, by omega⟩

/-- The decoder undoes the encoder from any current block on, when it has fuel for every encoded byte. -/
theorem cobsBlocks_cobsEncodeFrom {block : List Byte} (rest out : List Byte) {fuel : Nat} (hlen : block.length ≤ 253)
    (hfuel : (cobsEncodeFrom block rest).length ≤ fuel) :
    cobsBlocks fuel (cobsEncodeFrom block rest) out = some (out ++ block ++ rest) := by
  fun_induction cobsEncodeFrom block rest generalizing fuel out with
  | case1 block =>
    rw [← List.append_nil (cobsBlock block)] at hfuel ⊢
    obtain ⟨k, rfl, -⟩ := fuel_after_cobsBlock hfuel
    rw [cobsBlocks_cobsBlock (by omega), if_neg (by simp), cobsBlocks]
    simp
  | case2 block rest ih =>
    obtain ⟨k, rfl, htail⟩ := fuel_after_cobsBlock hfuel
    rw [cobsBlocks_cobsBlock (by omega), if_pos ⟨by omega, cobsEncodeFrom_ne_nil _ _⟩, ih _ (Nat.zero_le _) htail]
    simp
  | case3 block x rest hx hfull ih =>
    obtain ⟨k, rfl, htail⟩ := fuel_after_cobsBlock hfuel
    rw [cobsBlocks_cobsBlock (by simp [hfull]), if_neg (by simp [hfull]), ih _ (Nat.zero_le _) htail]
    simp
  | case4 block x rest hx hfull ih =>
    rw [ih _ (by simp; omega) hfuel]
    simp

theorem cobsDecode_cobsEncode (p : List Byte) : cobsDecode (cobsEncode p ++ [delim]) = some p := by
  rw [cobsDecode, List.getLast?_concat, if_pos rfl, List.dropLast_concat]
  exact cobsBlocks_cobsEncodeFrom (block := []) p [] (Nat.zero_le _) le_rfl

theorem cobsBlocks_bounded {fuel : Nat} {enc out res : List Byte} (h : cobsBlocks fuel enc out = some res) :
    res.length ≤ out.length + enc.length := by
  fun_induction cobsBlocks fuel enc out with
  | case1 => cases h; exact Nat.le_add_right _ _
  | case2 | case3 | case4 => cases h
  | case5 out fuel code rest n _ _ _ ih | case6 out fuel code rest n _ _ _ ih =>
    have := ih h
    simp at this ⊢
    omega

theorem cobsDecode_bounded {u out : List Byte} (h : cobsDecode u = some out) : out.length ≤ u.length := by
  rw [cobsDecode] at h
  split at h
  · have := cobsBlocks_bounded h
    simp at this
    omega
  · cases h

/-- Whatever coding is built in meets the obligations on it (42 R91). -/
theorem esc_meets (c : Config) : EscObligations (escEncode c) (escDecode c) := by
  cases hesc : c.esc with
  | cobs =>
    rw [funext (escEncode_cobs hesc), funext (escDecode_cobs hesc)]
    exact ⟨fun p => cobsEncodeFrom_zeroFree p (Nat.zero_le _) (List.forall_mem_nil _),
      fun p _ => cobsDecode_cobsEncode p, fun _ _ => cobsDecode_bounded⟩
  | external =>
    rw [funext (escEncode_external hesc), funext (escDecode_external hesc)]
    exact externalCodec.meets

/-! ### Which frames are valid -/

/-- The well-formed packets are the encodings of packets (30_encoding R53, R62). -/
theorem wellFormedPacket_iff {c : Config} {pkt : List Byte} :
    wellFormedPacket c pkt ↔ ∃ p, pkt = encodePacket c p := by
  constructor
  · rintro ⟨hlen, hheader, hchecksum⟩
    match pkt, hlen with
    | [hdr, b1, b2, b3, b4, b5, b6, b7, b8, b9, chk], _ =>
      cases hheader
      have hchk : chk = xor8 [c.header, b1, b2, b3, b4, b5, b6, b7, b8, b9] := Option.some.inj hchecksum
      exact ⟨⟨b1, b2, b3, b4, b5, b6, b7, b8, b9⟩, by rw [hchk]; rfl⟩
  · rintro ⟨p, rfl⟩
    exact ⟨rfl, rfl, rfl⟩

/-- Reading the fields offset by offset is the projection of the packet (43 R104). -/
theorem projectionOf_encodePacket (c : Config) (p : Packet) :
    projectionOf c (encodePacket c p) = packetCS c p := by
  unfold projectionOf packetCS packetButtons
  cases c.btnByteOrder <;> rfl

theorem frameVerdict_of_decode {c : Config} {buf : Memory} {pkt : List Byte} (hne : buf ≠ [])
    (h : escDecode c (buf ++ [delim]) = some pkt) : frameVerdict c buf = decodePacket c pkt := by
  simp only [frameVerdict, if_neg hne, h]

/-- A frame is valid exactly when it has bytes and decodes to the encoding of a packet (41 R82). -/
theorem frameVerdict_ok_iff {c : Config} {buf : Memory} {p : Packet} :
    frameVerdict c buf = .ok p ↔ buf ≠ [] ∧ escDecode c (buf ++ [delim]) = some (encodePacket c p) := by
  constructor
  · intro h
    have hne : buf ≠ [] := fun hnil => by simp [frameVerdict, hnil] at h
    cases hdec : escDecode c (buf ++ [delim]) with
    | none => simp [frameVerdict, hne, hdec] at h
    | some pkt =>
      rw [frameVerdict_of_decode hne hdec] at h
      exact ⟨hne, congrArg some (encodePacket_of_decodePacket h)⟩
  · rintro ⟨hne, hdec⟩
    rw [frameVerdict_of_decode hne hdec, decodePacket_encodePacket]

/-- A frame that decodes to no well-formed packet has a cause against it. -/
theorem frameVerdict_error_of_not_wellFormed {c : Config} {buf : Memory}
    (h : ∀ pkt, escDecode c (buf ++ [delim]) = some pkt → ¬ wellFormedPacket c pkt) :
    ∃ k, frameVerdict c buf = .error k := by
  cases hverdict : frameVerdict c buf with
  | error k => exact ⟨k, rfl⟩
  | ok p => exact absurd (wellFormedPacket_iff.2 ⟨p, rfl⟩) (h _ (frameVerdict_ok_iff.1 hverdict).2)

/-- An encoded packet is not empty: eleven bytes are not decoded from the delimiter alone (42 R91). -/
theorem escEncode_encodePacket_ne_nil (c : Config) (p : Packet) : escEncode c (encodePacket c p) ≠ [] := by
  intro hnil
  have hdec := (esc_meets c).roundTrip (encodePacket c p) rfl
  rw [hnil] at hdec
  exact absurd ((esc_meets c).bounded _ _ hdec) (by decide : ¬ 11 ≤ 1)

theorem frameVerdict_escEncode (c : Config) (p : Packet) :
    frameVerdict c (escEncode c (encodePacket c p)) = .ok p :=
  frameVerdict_ok_iff.2 ⟨escEncode_encodePacket_ne_nil c p, (esc_meets c).roundTrip _ rfl⟩

theorem escEncode_wf {c : Config} {pkt : List Byte} (hfit : (escEncode c pkt).length ≤ c.bufMax) :
    Memory.wf c.bufMax (escEncode c pkt) = true :=
  (memory_wf_iff _ _).2 ⟨hfit, (esc_meets c).zeroFree pkt⟩

/-! ### A delimiter, and the frame before it -/

theorem exec_pushDelim (s : State) : exec .pushDelim s = .next (answerFrame (pushDelim s)) := rfl

theorem exec_pushN (seq : List Byte) (s : State) : exec (.pushN seq) s = .next (answerFrame (pushBytes seq s)) := rfl

theorem pushDelim_valid {s : State} {p : Packet} (h : frameVerdict s.cfg s.buf = .ok p) :
    pushDelim s = (s.clear.project p, true) := by
  simp only [pushDelim, h]

theorem pushDelim_invalid {s : State} {k : Cause} (h : frameVerdict s.cfg s.buf = .error k) :
    pushDelim s = (s.clear, false) := by
  simp only [pushDelim, h, raiseDrop]

theorem pushDelim_buf (s : State) : (pushDelim s).1.buf = [] := by
  rw [← pushByte_delim, pushByte_buf, if_neg (by simp)]

theorem clear_eq_self {s : State} (h : s.buf = []) : s.clear = s :=
  state_eq rfl h.symm rfl rfl rfl

/-- A frame that fits, pushed into an empty buffer, is what the delimiter after it finds there (41 R86 law 3). -/
theorem pushBytes_frame {s : State} {e : List Byte} (hbuf : s.buf = []) (he : Memory.wf s.cfg.bufMax e = true) :
    pushBytes (e ++ [delim]) s = pushDelim { s with buf := e } := by
  obtain ⟨hfit, hz⟩ := (memory_wf_iff _ _).1 he
  rw [pushBytes_append, pushBytes_fit hz (by simpa [hbuf] using hfit), pushBytes_singleton, pushByte_delim, hbuf]
  simp

theorem pushBytes_validFrame {s : State} {e : List Byte} {p : Packet} (hbuf : s.buf = [])
    (he : Memory.wf s.cfg.bufMax e = true) (h : frameVerdict s.cfg e = .ok p) :
    pushBytes (e ++ [delim]) s = (s.project p, true) := by
  rw [pushBytes_frame hbuf he, pushDelim_valid (s := { s with buf := e }) h]
  exact congrArg (fun t : State => (t.project p, true)) (clear_eq_self hbuf)

theorem pushBytes_invalidFrame {s : State} {e : List Byte} {k : Cause} (hbuf : s.buf = [])
    (he : Memory.wf s.cfg.bufMax e = true) (h : frameVerdict s.cfg e = .error k) :
    pushBytes (e ++ [delim]) s = (s, false) := by
  rw [pushBytes_frame hbuf he, pushDelim_invalid (s := { s with buf := e }) h]
  exact congrArg (fun t : State => (t, false)) (clear_eq_self hbuf)

/-! ### What a batch does not depend on -/

theorem pushBytes_answer_congr (seq : List Byte) {s t : State} (hcfg : s.cfg = t.cfg) (hbuf : s.buf = t.buf) :
    (pushBytes seq s).2 = (pushBytes seq t).2 := by
  rw [pushBytes_answer, pushBytes_answer, hcfg, hbuf]

/-- A batch that accepts a packet leaves a `CS` that does not depend on the one before it. -/
theorem pushBytes_cs_of_true {seq : List Byte} {s t : State} (hcfg : s.cfg = t.cfg) (hbuf : s.buf = t.buf)
    (h : (pushBytes seq s).2 = true) : (pushBytes seq s).1.cs = (pushBytes seq t).1.cs := by
  rw [pushBytes_answer] at h
  rw [pushBytes_cs, pushBytes_cs, ← hcfg, ← hbuf]
  cases hlast : (acceptedPackets s.cfg s.buf seq).getLast? with
  | some p => rfl
  | none => simp [List.getLast?_eq_none_iff.1 hlast] at h

/-- A batch that accepts no packet leaves `CS` as it was. -/
theorem pushBytes_cs_of_false {seq : List Byte} {s : State} (h : (pushBytes seq s).2 = false) :
    (pushBytes seq s).1.cs = s.cs := by
  have hnone : acceptedPackets s.cfg s.buf seq = [] := by simpa [pushBytes_answer] using h
  rw [pushBytes_cs, hnone]
  rfl

/-! ### A batch and a run of single PUSH operations -/

/-- The state with other requests to come and other answers given: the caller's side, which the framer neither reads nor
writes (`pushByte_withCaller`). -/
def State.withCaller (s : State) (pending : List Request) (results : List Response) : State :=
  { s with pending := pending, results := results }

theorem pushByte_withCaller (b : Byte) (s : State) (pending : List Request) (results : List Response) :
    pushByte b (s.withCaller pending results) =
      ((pushByte b s).1.withCaller pending results, (pushByte b s).2) := by
  by_cases hb : b = delim
  · subst hb
    rw [pushByte_delim, pushByte_delim]
    obtain ⟨p, hp, hpush⟩ | ⟨k, hk, hpush⟩ := pushDelim_cases s
    · rw [hpush, pushDelim_valid (s := s.withCaller pending results) hp]; rfl
    · rw [hpush, pushDelim_invalid (s := s.withCaller pending results) hk]; rfl
  · rw [pushByte_data hb, pushByte_data hb]
    obtain ⟨hroom, hpush⟩ | ⟨hfull, hpush⟩ := pushData_cases b s
    · rw [hpush]; exact if_pos hroom
    · rw [hpush]; exact if_neg (Nat.not_lt.2 hfull)

/-- A caller's PUSH runs `pushByte` and answers its boolean (30_encoding R61, 41 R80). -/
theorem step_push (b : Byte) (s : State) (rest : List Request) (results : List Response) :
    step (s.withCaller (.push b :: rest) results) =
      .next ((pushByte b s).1.withCaller rest (results ++ [.frameDecoded (pushByte b s).2])) := by
  have hexec : exec (decodeByte b) (s.withCaller rest results) =
      .next (answerFrame (pushByte b (s.withCaller rest results))) := by
    by_cases hb : b = delim
    · subst hb
      exact execPushDelim_eq _
    · rw [decodeByte_data hb]
      exact execPushData_next_iff.2 ⟨hb, rfl⟩
  rw [step_of_decode (i := decodeByte b) rfl rfl]
  exact hexec.trans (by rw [pushByte_withCaller]; rfl)

/-- The answers of one PUSH per byte, in order; `runsTo_pushes` ties them to the machine. -/
def pushAnswers : List Byte → State → List Bool
  | [], _ => []
  | b :: rest, s => (pushByte b s).2 :: pushAnswers rest (pushByte b s).1

theorem pushAnswers_length (seq : List Byte) (s : State) : (pushAnswers seq s).length = seq.length := by
  induction seq generalizing s with
  | nil => rfl
  | cons b rest ih => rw [pushAnswers, List.length_cons, ih, List.length_cons]

/-- A batch answers the or of the answers to its bytes (41 R84). -/
theorem pushAnswers_any (seq : List Byte) (s : State) : (pushAnswers seq s).any id = (pushBytes seq s).2 := by
  induction seq generalizing s with
  | nil => rfl
  | cons b rest ih => rw [pushAnswers, List.any_cons, ih, pushBytes_cons]; rfl

theorem pushAnswers_append (a b : List Byte) (s : State) :
    pushAnswers (a ++ b) s = pushAnswers a s ++ pushAnswers b (pushBytes a s).1 := by
  induction a generalizing s with
  | nil => rfl
  | cons x rest ih => rw [List.cons_append, pushAnswers, ih, pushAnswers, pushBytes_cons, List.cons_append]

/-- Where a batch answers `false`, so does every PUSH of it. -/
theorem pushAnswers_of_false {seq : List Byte} {s : State} (h : (pushBytes seq s).2 = false) :
    pushAnswers seq s = List.replicate seq.length false := by
  rw [← pushAnswers_any, List.any_eq_false] at h
  exact List.eq_replicate_iff.2 ⟨pushAnswers_length seq s, fun b hb => Bool.eq_false_iff.2 (h b hb)⟩

/-- One PUSH per byte leaves the state that the batch leaves, and every answer is recorded (41 R84). -/
theorem runsTo_pushes (seq : List Byte) (s : State) (rest : List Request) (results : List Response) :
    RunsTo seq.length (s.withCaller (seq.map Request.push ++ rest) results)
      ((pushBytes seq s).1.withCaller rest (results ++ (pushAnswers seq s).map Response.frameDecoded)) := by
  induction seq generalizing s results with
  | nil => simpa [pushAnswers] using runsTo_zero _
  | cons b bytes ih =>
    have hrun := ih (pushByte b s).1 (results ++ [.frameDecoded (pushByte b s).2])
    rw [List.append_assoc] at hrun
    exact runsTo_succ (step_push b s _ results) hrun

/-- A valid frame, byte by byte: only the delimiter is answered with `true`. -/
theorem pushAnswers_validFrame {s : State} {e : List Byte} {p : Packet} (hbuf : s.buf = [])
    (he : Memory.wf s.cfg.bufMax e = true) (h : frameVerdict s.cfg e = .ok p) :
    pushAnswers (e ++ [delim]) s = List.replicate e.length false ++ [true] := by
  obtain ⟨hfit, hz⟩ := (memory_wf_iff _ _).1 he
  have hdata := pushBytes_fit hz (s := s) (by simpa [hbuf] using hfit)
  have hdelim : (pushByte delim { s with buf := s.buf ++ e }).2 = true := by
    rw [pushByte_delim, pushDelim_valid (p := p) (by simpa [hbuf] using h)]
  rw [pushAnswers_append, pushAnswers_of_false (by rw [hdata]), hdata]
  simp [pushAnswers, hdelim]

/-! ### Over-long input -/

/-- The last `|e| mod (n + 1)` bytes of `e`; `pushBytes_overlong` ties it to the machine. -/
def overlongTail (n : Nat) (e : List Byte) : List Byte :=
  e.drop (e.length - e.length % (n + 1))

theorem overlongTail_length (n : Nat) (e : List Byte) : (overlongTail n e).length = e.length % (n + 1) := by
  have := Nat.mod_le e.length (n + 1)
  rw [overlongTail, List.length_drop]
  omega

/-- One more byte is appended, or is the one that finds the buffer full and drops it. -/
theorem overlongTail_concat (n : Nat) (e : List Byte) (b : Byte) :
    overlongTail n (e ++ [b]) = if (overlongTail n e).length < n then overlongTail n e ++ [b] else [] := by
  have hle := Nat.mod_le e.length (n + 1)
  have hlt : e.length % (n + 1) < n + 1 := Nat.mod_lt _ (Nat.succ_pos n)
  rw [overlongTail_length]
  split
  · next hroom =>
    have hmod : (e.length + 1) % (n + 1) = e.length % (n + 1) + 1 := by
      rw [Nat.add_mod, Nat.mod_eq_of_lt (a := 1) (by omega), Nat.mod_eq_of_lt (by omega)]
    rw [overlongTail, overlongTail, List.length_append, List.length_singleton, hmod, Nat.add_sub_add_right,
      List.drop_append_of_le_length (Nat.sub_le _ _)]
  · next hfull =>
    have hmod : (e.length + 1) % (n + 1) = 0 := by
      rw [← Nat.mod_add_mod, show e.length % (n + 1) = n by omega, Nat.mod_self]
    rw [overlongTail, List.length_append, List.length_singleton, hmod]
    exact List.drop_of_length_le (by simp)

/-- Non-zero bytes into an empty buffer: each overflow drops `BUF_MAX + 1` of them (41 R81 corner case 3). -/
theorem pushBytes_overlong {s : State} {e : List Byte} (hbuf : s.buf = []) (hz : ∀ b ∈ e, b ≠ delim) :
    pushBytes e s = ({ s with buf := overlongTail s.cfg.bufMax e }, false) := by
  induction e using List.reverseRecOn with
  | nil => exact congrArg (·, false) (state_eq rfl hbuf rfl rfl rfl)
  | append_singleton e b ih =>
    obtain ⟨hze, hzb⟩ := List.forall_mem_append.1 hz
    have hb : b ≠ delim := hzb b (List.mem_singleton_self b)
    rw [pushBytes_append, ih hze, pushBytes_singleton, pushByte_data hb, overlongTail_concat, pushData, State.len]
    split <;> rfl

/-! ### The obligations -/

/-- Settles O31: the coding meets 42 R91, so the encoded packet is a valid frame, and one PUSH per byte does what the
batch does. -/
theorem roundTripByteByByte : Obligations.RoundTripByteByByte := by
  rintro s p e rfl hfit hbuf
  have he := escEncode_wf hfit
  have hvalid := frameVerdict_escEncode s.cfg p
  have hrun := runsTo_pushes (escEncode s.cfg (encodePacket s.cfg p) ++ [delim]) s s.pending s.results
  rw [pushBytes_validFrame hbuf he hvalid, pushAnswers_validFrame hbuf he hvalid, List.length_append,
    List.map_append (f := Response.frameDecoded), List.map_replicate, ← List.append_assoc] at hrun
  rw [projectionOf_encodePacket]
  exact hrun

/-- Settles O25, by the verdict on the frame. -/
theorem pushDelimDecodesTheFrame : Obligations.PushDelimDecodesTheFrame := by
  refine fun s => ⟨fun hnil => ?_, fun pkt hne hdec hwf => ?_, fun hne hbad => ?_⟩
  · have hverdict : frameVerdict s.cfg s.buf = .error .noneEmpty := if_pos hnil
    rw [exec_pushDelim, pushDelim_invalid hverdict, clear_eq_self hnil]
    rfl
  · obtain ⟨p, rfl⟩ := wellFormedPacket_iff.1 hwf
    rw [exec_pushDelim, pushDelim_valid (frameVerdict_ok_iff.2 ⟨hne, hdec⟩), projectionOf_encodePacket]
    rfl
  · obtain ⟨k, hk⟩ := frameVerdict_error_of_not_wellFormed hbad
    rw [exec_pushDelim, pushDelim_invalid hk]
    rfl

/-- Settles O27: the run of single PUSH operations, with the answers it records. -/
theorem pushNIsOnePushPerByte : Obligations.PushNIsOnePushPerByte := by
  intro s seq
  refine ⟨answerFrame (pushBytes seq s), pushAnswers seq s, rfl, pushAnswers_length seq s, ?_, ?_⟩
  · rw [pushAnswers_any, answerFrame, respond_results, pushBytes_results]
  · change RunsTo _ _ ((pushBytes seq s).1.withCaller (pushBytes seq s).1.pending _)
    rw [pushBytes_pending]
    exact runsTo_pushes seq s s.pending s.results

/-- Settles O28: after the first frame the buffer is empty, so the second is a frame in an empty buffer too. -/
theorem batchKeepsLastValidFrame : Obligations.BatchKeepsLastValidFrame := by
  intro s e₁ e₂ p₁ hbuf hz hfit₁ hfit₂ hp₁
  obtain ⟨hz₁, hz₂⟩ := List.forall_mem_append.1 hz
  have hfirst := pushBytes_validFrame hbuf ((memory_wf_iff _ _).2 ⟨hfit₁, hz₁⟩) hp₁
  have hwf₂ : Memory.wf (s.project p₁).cfg.bufMax e₂ = true := (memory_wf_iff _ _).2 ⟨hfit₂, hz₂⟩
  have hbatch : exec (.pushN (e₁ ++ [0] ++ e₂ ++ [0])) s =
      .next (answerFrame ((pushBytes (e₂ ++ [delim]) (s.project p₁)).1, true)) := by
    rw [exec_pushN, List.append_assoc, ← delim_eq_zero, pushBytes_append, hfirst]
    rfl
  refine ⟨fun p₂ hp₂ => ?_, fun k hk => ?_⟩
  · rw [hbatch, pushBytes_validFrame (s := s.project p₁) hbuf hwf₂ hp₂]
    rfl
  · rw [hbatch, pushBytes_invalidFrame (s := s.project p₁) hbuf hwf₂ hk]
    rfl

/-- Settles O30, by the verdict on the frame. -/
theorem frameTheorem : Obligations.FrameTheorem := by
  intro s e hbuf hne hz hfit
  have he : Memory.wf s.cfg.bufMax e = true := (memory_wf_iff _ _).2 ⟨hfit, hz⟩
  refine ⟨fun pkt hdec hwf => ?_, fun hbad => ?_⟩
  · obtain ⟨p, rfl⟩ := wellFormedPacket_iff.1 hwf
    rw [exec_pushN, ← delim_eq_zero, pushBytes_validFrame hbuf he (frameVerdict_ok_iff.2 ⟨hne, hdec⟩),
      projectionOf_encodePacket]
    rfl
  · obtain ⟨k, hk⟩ := frameVerdict_error_of_not_wellFormed hbad
    rw [exec_pushN, ← delim_eq_zero, pushBytes_invalidFrame hbuf he hk]
    rfl

/-- Settles O32: the first delimiter leaves an empty buffer, whatever it finds, and the encoded packet is a valid
frame. -/
theorem delimiterRestoresAlignment : Obligations.DelimiterRestoresAlignment := by
  rintro s p e rfl hfit
  have hbuf : (pushByte delim s).1.buf = [] := by rw [pushByte_delim, pushDelim_buf]
  have hframe : pushBytes (escEncode s.cfg (encodePacket s.cfg p) ++ [delim]) (pushByte delim s).1 =
      ((pushByte delim s).1.project p, true) :=
    pushBytes_validFrame hbuf (by rw [pushByte_cfg]; exact escEncode_wf hfit)
      (by rw [pushByte_cfg]; exact frameVerdict_escEncode s.cfg p)
  rw [exec_pushN, ← delim_eq_zero, List.append_assoc, pushBytes_append, pushBytes_singleton, hframe,
    projectionOf_encodePacket]
  refine congrArg _ ?_
  apply state_eq <;> simp [answerFrame, hbuf]

/-- Settles O33: the two blocks leave the delimiter with the same parameters and an empty buffer, which determine the
packets that the later bytes complete. -/
theorem delimiterForgetsThePast : Obligations.DelimiterForgetsThePast := by
  intro s₁ s₂ seq hcfg
  have hcfg' : (completed .pushDelim s₁).cfg = (completed .pushDelim s₂).cfg := by
    rw [completed_cfg, completed_cfg, hcfg]
  have hbuf' : (completed .pushDelim s₁).buf = (completed .pushDelim s₂).buf :=
    (pushDelim_buf s₁).trans (pushDelim_buf s₂).symm
  have hanswer := pushBytes_answer_congr seq hcfg' hbuf'
  refine ⟨completed .pushDelim s₁, completed .pushDelim s₂, _, _, (pushBytes seq (completed .pushDelim s₁)).2,
    execPushDelim_eq s₁, execPushDelim_eq s₂, exec_pushN seq _, exec_pushN seq _, ?_, ?_,
    pushBytes_buf_congr seq hcfg' hbuf', pushBytes_cs_of_true hcfg' hbuf',
    fun h => ⟨pushBytes_cs_of_false h, pushBytes_cs_of_false (hanswer ▸ h)⟩⟩
  · rw [answerFrame, respond_results, pushBytes_results]
  · rw [answerFrame, respond_results, pushBytes_results, hanswer]

/-- Settles O34, by induction on the bytes from the last one on: the buffer is the tail of the bytes pushed so far. -/
theorem overlongInputKeepsTail : Obligations.OverlongInputKeepsTail := by
  intro s e hbuf hz
  rw [exec_pushN, pushBytes_overlong hbuf hz]
  rfl

/-- Settles O24, by the two things PUSH.DATA can do. -/
theorem pushDataAppendsOrDrops : Obligations.PushDataAppendsOrDrops := by
  intro s b hb
  have hexec : exec (.pushData b) s = .next (answerFrame (pushData b s)) := if_neg hb
  obtain ⟨hroom, hpush⟩ | ⟨hfull, hpush⟩ := pushData_cases b s
  · exact ⟨fun _ => by rw [hexec, hpush]; rfl, fun hfull => absurd hroom (Nat.not_lt.2 hfull)⟩
  · exact ⟨fun hroom => absurd hroom (Nat.not_lt.2 hfull), fun _ => by rw [hexec, hpush]; rfl⟩

/-- Settles O26: the verdict is the packet, so the delimiter projects it on the cleared buffer. -/
theorem pushDelimRunsPktUpdate : Obligations.PushDelimRunsPktUpdate :=
  fun s p hp => ⟨s.clear.project p, rfl, by rw [exec_pushDelim, pushDelim_valid hp]; rfl⟩

/-- Settles O29: clearing the buffer is all that FRESET does. -/
theorem fResetClearsTheBuffer : Obligations.FResetClearsTheBuffer :=
  fun _ => rfl

end Sys2Proof.Machine
end

section
/-! PROOFS of the family 42_escape_decoding: what the default decoder accepts, when it fails and how long what it gives
is, and with that which frames can succeed. The layer below says once what the decoder does at a code byte of the chain
(`cobsBlocks_drop_cases`), how long what it gives is (`cobsBlocks_length`), and that what it accepts is an encoding
(`cobsEncode_of_cobsBlocks`); the theorems go through these. -/

namespace Sys2Proof.Machine

/-! ### Units -/

/-- Of a unit the default decoder reads the bytes before the delimiter, with fuel for each (42 R93). -/
theorem cobsDecode_concat (e : List Byte) : cobsDecode (e ++ [delim]) = cobsBlocks e.length e [] := by
  rw [cobsDecode, List.getLast?_concat, if_pos rfl, List.dropLast_concat]

/-- Whatever the default decoder accepts ends in the delimiter. -/
theorem cobsDecode_some {u res : List Byte} (h : cobsDecode u = some res) :
    ∃ e, u = e ++ [delim] ∧ cobsBlocks e.length e [] = some res := by
  by_cases hlast : u.getLast? = some delim
  · obtain ⟨e, rfl⟩ := List.getLast?_eq_some_iff.1 hlast
    exact ⟨e, rfl, cobsDecode_concat e ▸ h⟩
  · rw [cobsDecode, if_neg hlast] at h
    cases h

theorem cobsBlocks_nil (fuel : Nat) (out : List Byte) : cobsBlocks fuel [] out = some out := by
  cases fuel <;> rfl

/-! ### The chain of code bytes -/

/-- What a code byte does: it points past the encoded bytes and the decoder fails, or the decoder goes on from where it
points, which is the next code byte (42 R92, R93). -/
theorem cobsBlocks_cons_cases (fuel : Nat) {code : Byte} (hcode : code ≠ 0) (rest out : List Byte) :
    (rest.length + 1 < code.toNat ∧ cobsBlocks (fuel + 1) (code :: rest) out = none) ∨
      (code.toNat ≤ rest.length + 1 ∧ ∃ out',
        cobsBlocks (fuel + 1) (code :: rest) out = cobsBlocks fuel ((code :: rest).drop code.toNat) out') := by
  have hpos := BitVec.toNat_pos_of_ne_zero hcode
  rw [List.drop_cons hpos, cobsBlocks, if_neg hcode]
  split
  · exact .inl ⟨by omega, rfl⟩
  · refine .inr ⟨by omega, ?_⟩
    split <;> exact ⟨_, rfl⟩

/-- `cobsBlocks_cons_cases` for the code byte at an index of the encoded bytes. -/
theorem cobsBlocks_drop_cases (fuel : Nat) {e : List Byte} {j : Nat} {c : Byte} (hc : e[j]? = some c) (hcode : c ≠ 0)
    (out : List Byte) :
    (e.length < j + c.toNat ∧ cobsBlocks (fuel + 1) (e.drop j) out = none) ∨
      (j + c.toNat ≤ e.length ∧ ∃ out',
        cobsBlocks (fuel + 1) (e.drop j) out = cobsBlocks fuel (e.drop (j + c.toNat)) out') := by
  obtain ⟨hj, rfl⟩ := List.getElem?_eq_some_iff.1 hc
  have hcases := cobsBlocks_cons_cases fuel hcode (e.drop (j + 1)) out
  rw [← List.drop_eq_getElem_cons hj, List.drop_drop, List.length_drop] at hcases
  obtain ⟨hover, hnone⟩ | ⟨hle, hstep⟩ := hcases
  · exact .inl ⟨by omega, hnone⟩
  · exact .inr ⟨by omega, hstep⟩

/-- Where the decoder succeeds from a code byte on, that byte does not point past the end. -/
theorem cobsBlocks_drop_some {fuel j : Nat} {c : Byte} {e out res : List Byte} (hc : e[j]? = some c) (hcode : c ≠ 0)
    (h : cobsBlocks fuel (e.drop j) out = some res) :
    j + c.toNat ≤ e.length ∧ ∃ k out', cobsBlocks k (e.drop (j + c.toNat)) out' = some res := by
  cases fuel with
  | zero =>
    obtain ⟨hj, -⟩ := List.getElem?_eq_some_iff.1 hc
    rw [List.drop_eq_getElem_cons hj] at h
    cases h
  | succ k =>
    obtain ⟨-, hnone⟩ | ⟨hle, out', hstep⟩ := cobsBlocks_drop_cases k hc hcode out
    · rw [hnone] at h
      cases h
    · exact ⟨hle, k, out', hstep ▸ h⟩

/-- Where the encoded bytes decode, so does what is left of them at every code byte on the chain. -/
theorem onChain_suffix_decodes {e : List Byte} {j : Nat} (hchain : OnChain e j) (hz : ∀ b ∈ e, b ≠ 0) {fuel : Nat}
    {out res : List Byte} (h : cobsBlocks fuel e out = some res) :
    ∃ k out', cobsBlocks k (e.drop j) out' = some res := by
  induction hchain with
  | first => exact ⟨fuel, out, h⟩
  | next _ hc _ ih =>
    obtain ⟨k, out', hsuffix⟩ := ih
    exact (cobsBlocks_drop_some hc (hz _ (List.mem_of_getElem? hc)) hsuffix).2

/-- The decoder fails only where it still has bytes to read. -/
theorem lt_length_of_cobsBlocks_none {fuel j : Nat} {e out : List Byte} (h : cobsBlocks fuel (e.drop j) out = none) :
    j < e.length := by
  by_contra hend
  rw [List.drop_of_length_le (Nat.not_lt.1 hend), cobsBlocks_nil] at h
  cases h

/-- Where the decoder fails for all its fuel, the chain leads from where it stands to a code byte that points past the
encoded bytes. -/
theorem onChain_overruns_of_none {e out : List Byte} {fuel j : Nat} (hz : ∀ b ∈ e, b ≠ 0) (hfuel : e.length ≤ j + fuel)
    (hchain : j < e.length → OnChain e j) (h : cobsBlocks fuel (e.drop j) out = none) :
    ∃ j c, OnChain e j ∧ e[j]? = some c ∧ e.length < j + c.toNat := by
  have hj := lt_length_of_cobsBlocks_none h
  induction fuel generalizing j out with
  | zero => omega
  | succ fuel ih =>
    have hc : e[j]? = some e[j] := List.getElem?_eq_getElem hj
    have hcode : e[j] ≠ 0 := hz _ (List.getElem_mem hj)
    have hpos := BitVec.toNat_pos_of_ne_zero hcode
    obtain ⟨hover, -⟩ | ⟨-, out', hstep⟩ := cobsBlocks_drop_cases fuel hc hcode out
    · exact ⟨j, e[j], hchain hj, hc, hover⟩
    · have hnext : cobsBlocks fuel (e.drop (j + e[j].toNat)) out' = none := hstep ▸ h
      exact ih (by omega) (.next (hchain hj) hc) hnext (lt_length_of_cobsBlocks_none hnext)

/-! ### The length of what the decoder gives -/

/-- The decoder only adds to what is already put out. -/
theorem cobsBlocks_prefix {fuel : Nat} {enc out res : List Byte} (h : cobsBlocks fuel enc out = some res) :
    out <+: res := by
  fun_induction cobsBlocks fuel enc out with
  | case1 => cases h; exact List.prefix_rfl
  | case2 | case3 | case4 => cases h
  | case5 _ _ _ _ _ _ _ _ ih =>
    have hprefix := ih h
    rw [List.append_assoc] at hprefix
    exact (List.prefix_append _ _).trans hprefix
  | case6 _ _ _ _ _ _ _ _ ih => exact (List.prefix_append _ _).trans (ih h)

/-- A block that puts out no zero is the last one, or has the code 0xFF and 254 data bytes (42 R92, R93). -/
theorem cobsBlock_unterminated {code : Byte} {rest : List Byte} (hroom : ¬ rest.length < code.toNat - 1)
    (h : ¬ (code ≠ 0xFF ∧ code.toNat - 1 < rest.length)) : rest.length = code.toNat - 1 ∨ code.toNat - 1 = 254 := by
  by_cases hff : code = 0xFF
  · exact .inr (by rw [hff]; rfl)
  · exact .inl (by have := not_and.1 h hff; omega)

/-- What is put out is shorter than the encoded bytes, and by just one byte where it has no room for a block of 254
data bytes (42 R94 items 2 and 3). -/
theorem cobsBlocks_length {fuel : Nat} {enc out res : List Byte} (hne : enc ≠ [])
    (h : cobsBlocks fuel enc out = some res) :
    res.length + 1 ≤ out.length + enc.length ∧
      (res.length < out.length + 254 → res.length + 1 = out.length + enc.length) := by
  fun_induction cobsBlocks fuel enc out with
  | case1 => exact absurd rfl hne
  | case2 | case3 | case4 => cases h
  | case5 fuel code rest out n _ _ hzero ih =>
    obtain ⟨-, hmore⟩ := hzero
    obtain ⟨hle, heq⟩ := ih (by simpa using hmore) h
    simp only [List.length_append, List.length_take, List.length_drop, List.length_cons, List.length_nil] at hle heq ⊢
    omega
  | case6 fuel code rest out n _ hroom hlast ih =>
    have hfull := cobsBlock_unterminated hroom hlast
    by_cases htail : rest.drop n = []
    · rw [htail, cobsBlocks_nil] at h
      cases h
      rw [List.drop_eq_nil_iff] at htail
      rw [List.length_append, List.length_take, List.length_cons]
      omega
    · have hprefix := (cobsBlocks_prefix h).length_le
      obtain ⟨hle, -⟩ := ih htail h
      rw [List.drop_eq_nil_iff] at htail
      simp only [List.length_append, List.length_take, List.length_drop, List.length_cons] at hle hprefix ⊢
      omega

/-- The length law of the default decoder (42 R94 items 2 and 3). -/
theorem cobsDecode_length {u res : List Byte} (hlen : 2 ≤ u.length) (h : cobsDecode u = some res) :
    res.length + 2 ≤ u.length ∧ (res.length < 254 → res.length + 2 = u.length) := by
  obtain ⟨e, rfl, hdec⟩ := cobsDecode_some h
  rw [List.length_append, List.length_singleton] at hlen ⊢
  obtain ⟨hle, heq⟩ := cobsBlocks_length (List.ne_nil_of_length_pos (by omega)) hdec
  rw [List.length_nil] at hle heq
  exact ⟨by omega, fun h => by have := heq (by omega); omega⟩

/-! ### The encoder -/

/-- The encoder gathers the data of the current block until it finds a zero (42 R95). -/
theorem cobsEncodeFrom_append {block d : List Byte} (rest : List Byte) (hlen : block.length + d.length ≤ 253)
    (hz : ∀ b ∈ d, b ≠ 0) : cobsEncodeFrom block (d ++ rest) = cobsEncodeFrom (block ++ d) rest := by
  induction d generalizing block with
  | nil => rw [List.nil_append, List.append_nil]
  | cons x d ih =>
    obtain ⟨hx, hd⟩ := List.forall_mem_cons.1 hz
    rw [List.length_cons] at hlen
    rw [List.cons_append, cobsEncodeFrom, if_neg hx, if_neg (by omega), ih (by simp; omega) hd, List.append_assoc]
    rfl

theorem cobsEncode_lastBlock {d : List Byte} (hlen : d.length ≤ 253) (hz : ∀ b ∈ d, b ≠ 0) :
    cobsEncode d = cobsBlock d := by
  have h := cobsEncodeFrom_append (block := []) [] (by simpa using hlen) hz
  rwa [List.append_nil] at h

theorem cobsEncode_block {d : List Byte} (hlen : d.length ≤ 253) (hz : ∀ b ∈ d, b ≠ 0) (rest : List Byte) :
    cobsEncode (d ++ 0 :: rest) = cobsBlock d ++ cobsEncode rest :=
  (cobsEncodeFrom_append (block := []) (0 :: rest) (by simpa using hlen) hz).trans (if_pos rfl)

/-- For data shorter than 254 bytes only the first code byte is added: every further one takes the place of a zero. -/
theorem cobsEncodeFrom_length (block rest : List Byte) (h : block.length + rest.length < 254) :
    (cobsEncodeFrom block rest).length = block.length + rest.length + 1 := by
  fun_induction cobsEncodeFrom block rest with
  | case1 block => rfl
  | case2 block rest ih =>
    rw [List.length_cons] at h
    rw [List.length_append, ih (by rw [List.length_nil]; omega), cobsBlock, List.length_cons, List.length_cons,
      List.length_nil]
    omega
  | case3 block x rest _ hfull =>
    rw [List.length_cons] at h
    omega
  | case4 block x rest _ _ ih =>
    have hconcat : (block ++ [x]).length = block.length + 1 := List.length_append
    rw [List.length_cons] at h ⊢
    rw [ih (by omega), hconcat]
    omega

/-- A code byte and the data bytes it counts are the block of those data bytes. -/
theorem cobsBlock_take_append_drop {code : Byte} {rest : List Byte} (hcode : code ≠ 0)
    (hroom : ¬ rest.length < code.toNat - 1) :
    cobsBlock (rest.take (code.toNat - 1)) ++ rest.drop (code.toNat - 1) = code :: rest := by
  rw [cobsBlock, List.length_take_of_le (Nat.not_lt.1 hroom), Nat.sub_add_cancel (BitVec.toNat_pos_of_ne_zero hcode),
    BitVec.ofNat_toNat, BitVec.setWidth_eq, List.cons_append, List.take_append_drop]

/-- At most 254 non-zero bytes that decode are the encoding of what they add to the bytes put out: none of their blocks
is full, so each but the last stands for its data and a zero. -/
theorem cobsEncode_of_cobsBlocks {fuel : Nat} {enc out res : List Byte} (hne : enc ≠ []) (hlen : enc.length ≤ 254)
    (hz : ∀ b ∈ enc, b ≠ 0) (h : cobsBlocks fuel enc out = some res) :
    ∃ p, res = out ++ p ∧ cobsEncode p = enc := by
  fun_induction cobsBlocks fuel enc out with
  | case1 => exact absurd rfl hne
  | case2 | case3 | case4 => cases h
  | case5 fuel code rest out n hcode hroom hzero ih =>
    obtain ⟨-, hrest⟩ := List.forall_mem_cons.1 hz
    obtain ⟨-, hmore⟩ := hzero
    rw [List.length_cons] at hlen
    obtain ⟨p, rfl, hp⟩ := ih (by simpa using hmore) (by rw [List.length_drop]; omega)
      (fun b hb => hrest b (List.mem_of_mem_drop hb)) h
    refine ⟨rest.take n ++ 0 :: p, by simp, ?_⟩
    rw [cobsEncode_block (by rw [List.length_take]; omega) (fun b hb => hrest b (List.mem_of_mem_take hb)), hp,
      cobsBlock_take_append_drop hcode hroom]
  | case6 fuel code rest out n hcode hroom hlast ih =>
    obtain ⟨-, hrest⟩ := List.forall_mem_cons.1 hz
    rw [List.length_cons] at hlen
    have hall : rest.length = n := (cobsBlock_unterminated hroom hlast).resolve_right (by omega)
    have hblock : cobsBlock (rest.take n) ++ rest.drop n = code :: rest := cobsBlock_take_append_drop hcode hroom
    rw [List.drop_of_length_le hall.le, cobsBlocks_nil, List.take_of_length_le hall.le] at h
    rw [List.drop_of_length_le hall.le, List.take_of_length_le hall.le, List.append_nil] at hblock
    exact ⟨rest, (Option.some.inj h).symm, (cobsEncode_lastBlock (by omega) hrest).trans hblock⟩

/-! ### Frames under the default coding -/

/-- With the default coding a valid frame has twelve bytes: its packet has eleven (42 R96). -/
theorem length_of_frameVerdict_ok {c : Config} {buf : Memory} {p : Packet} (hesc : c.esc = .cobs)
    (h : frameVerdict c buf = .ok p) : buf.length = 12 := by
  obtain ⟨hne, hdec⟩ := frameVerdict_ok_iff.1 h
  rw [escDecode_cobs hesc] at hdec
  have hpkt : (encodePacket c p).length = 11 := rfl
  have hunit : (buf ++ [delim]).length = buf.length + 1 := List.length_append
  have hpos := List.length_pos_iff.2 hne
  obtain ⟨-, heq⟩ := cobsDecode_length (by omega) hdec
  have := heq (by omega)
  omega

theorem frameVerdict_error_of_length {c : Config} {buf : Memory} (hesc : c.esc = .cobs) (hlen : buf.length ≠ 12) :
    ∃ k, frameVerdict c buf = .error k := by
  cases hverdict : frameVerdict c buf with
  | error k => exact ⟨k, rfl⟩
  | ok p => exact absurd (length_of_frameVerdict_ok hesc hverdict) hlen

/-- A buffer with no room for twelve bytes completes no packet (41 R86 law 6). -/
theorem acceptedPackets_of_small {c : Config} (hesc : c.esc = .cobs) (hmax : c.bufMax < 12) (seq : List Byte)
    {buf : Memory} (hbuf : buf.length ≤ c.bufMax) : acceptedPackets c buf seq = [] := by
  induction seq generalizing buf with
  | nil => rfl
  | cons b rest ih =>
    by_cases hb : b = delim
    · subst hb
      obtain ⟨k, hk⟩ := frameVerdict_error_of_length hesc (buf := buf) (by omega)
      rw [acceptedPackets_invalid hk, ih (Nat.zero_le _)]
    · by_cases hroom : buf.length < c.bufMax
      · rw [acceptedPackets_append hb hroom, ih (by simpa using hroom)]
      · rw [acceptedPackets_overflow hb (Nat.not_lt.1 hroom), ih (Nat.zero_le _)]

/-! ### The obligations -/

/-- Settles O41: the coding meets 42 R91 and decodes back, and block by block the decoder's success gives the encoder's
bytes. -/
theorem cobsRoundTrip : Obligations.CobsRoundTrip := by
  refine ⟨esc_meets, fun p => ⟨?_, cobsDecode_cobsEncode p, fun hlen => ?_⟩, fun e out hne hlen hz h => ?_⟩
  · exact cobsEncodeFrom_zeroFree p (Nat.zero_le _) (List.forall_mem_nil _)
  · simpa [cobsEncode] using cobsEncodeFrom_length [] p (by simpa using hlen)
  · have hblocks : cobsBlocks e.length e [] = some out := (cobsDecode_concat e).symm.trans h
    obtain ⟨p, rfl, hp⟩ := cobsEncode_of_cobsBlocks hne hlen hz hblocks
    exact hp

/-- Settles O36: a valid frame has twelve bytes, and a smaller buffer never holds as many. -/
theorem successNeedsTwelveBytes : Obligations.SuccessNeedsTwelveBytes := by
  refine fun s hesc => ⟨fun hlen => ?_, fun hmax hbuf seq => ?_⟩
  · obtain ⟨k, hk⟩ := frameVerdict_error_of_length hesc hlen
    rw [exec_pushDelim, pushDelim_invalid hk]
    rfl
  · obtain ⟨hresults, hcs⟩ :=
      completed_push_of_none (i := .pushN seq) (s := s) rfl rfl (acceptedPackets_of_small hesc hmax seq hbuf)
    exact ⟨completed (.pushN seq) s, exec_pushN seq s, hcs, hresults⟩

/-- Settles O42, by the length law. -/
theorem cobsNeverExpands : Obligations.CobsNeverExpands :=
  fun _ _ hlen h => (cobsDecode_length hlen h).1

/-- Settles O43: a failure follows the chain to a code byte that points past the end, a success shuts one out; and a
unit of at most 255 bytes gives fewer than 254. -/
theorem cobsLengthLaw : Obligations.CobsLengthLaw := by
  refine ⟨fun e hne hz => ?_, fun u out hlen hmax h => ?_⟩
  · rw [← delim_eq_zero, cobsDecode_concat]
    constructor
    · intro hnone
      exact onChain_overruns_of_none hz (Nat.zero_add _).ge (fun _ => .first hne) hnone
    · rintro ⟨j, c, hchain, hc, hover⟩
      refine Option.eq_none_iff_forall_ne_some.2 fun out h => ?_
      obtain ⟨k, out', hsuffix⟩ := onChain_suffix_decodes hchain hz h
      exact absurd (cobsBlocks_drop_some hc (hz c (List.mem_of_getElem? hc)) hsuffix).1 (Nat.not_le.2 hover)
  · obtain ⟨hle, heq⟩ := cobsDecode_length hlen h
    exact heq (by omega)

end Sys2Proof.Machine
end

section
/-! PROOFS of the family 43_packet_validation: which check a packet fails first and what a delimiter does then, which
changes of a packet the checksum finds, and that packets and values of `CS` correspond one to one. The layer below says
once what the decoder answers for each failed check and for none (`decodePacket_ok_iff`), and how the exclusive-or of a
sequence changes with its bytes (`xor8_set`, `xor8_perm`, `xor8_zipWith`); the theorems go through these. -/

namespace Sys2Proof.Machine

/-! ### The exclusive-or of changed sequences -/

theorem xor8_cons_eq (b : Byte) (s : List Byte) : xor8 (b :: s) = b ^^^ xor8 s :=
  calc xor8 (b :: s)
      = s.foldl (· ^^^ ·) b := xor8_cons b s
    _ = s.foldl (· ^^^ ·) (b ^^^ 0) := congrArg (s.foldl (· ^^^ ·)) BitVec.xor_zero.symm
    _ = b ^^^ xor8 s := List.foldl_assoc

/-- The exclusive-or does not see the order of the bytes. -/
theorem xor8_perm {s t : List Byte} (h : s.Perm t) : xor8 s = xor8 t :=
  h.foldl_eq 0

/-- Writing another byte changes the exclusive-or by the difference of the two. -/
theorem xor8_set {s : List Byte} {k : Nat} (hk : k < s.length) (b : Byte) :
    xor8 (s.set k b) = (s[k] ^^^ b) ^^^ xor8 s := by
  have hset : xor8 (s.set k b) = b ^^^ xor8 (s.eraseIdx k) := by
    rw [xor8_perm (List.set_perm_cons_eraseIdx hk b), xor8_cons_eq]
  have horig : xor8 s = s[k] ^^^ xor8 (s.eraseIdx k) := by
    rw [← xor8_cons_eq, xor8_perm (List.getElem_cons_eraseIdx_perm hk)]
  rw [hset, horig, BitVec.xor_comm s[k] b, BitVec.xor_assoc, ← BitVec.xor_assoc s[k], BitVec.xor_self,
    BitVec.zero_xor]

/-- The exclusive-or of the differences is the difference of the exclusive-ors. -/
theorem xor8_zipWith {s t : List Byte} (h : s.length = t.length) :
    xor8 (List.zipWith (· ^^^ ·) s t) = xor8 s ^^^ xor8 t := by
  induction s generalizing t with
  | nil => cases List.length_eq_zero_iff.1 h.symm; rfl
  | cons a s ih =>
    cases t with
    | nil => cases h
    | cons b t =>
      rw [List.zipWith_cons_cons, xor8_cons_eq, xor8_cons_eq, xor8_cons_eq, ih (Nat.succ.inj h)]
      ac_rfl

/-! ### The three checks -/

/-- The length check (43 R100). -/
theorem decodePacket_badLength (c : Config) {pkt : List Byte} (hlen : pkt.length ≠ 11) :
    decodePacket c pkt = .error .length := by
  unfold decodePacket
  split
  · exact absurd rfl hlen
  · rfl

/-- The header check (43 R101). -/
theorem decodePacket_badHeader {c : Config} {pkt : List Byte} (hlen : pkt.length = 11)
    (hheader : pkt[0]? ≠ some c.header) : decodePacket c pkt = .error .header := by
  match pkt, hlen with
  | [hdr, _, _, _, _, _, _, _, _, _, _], _ => exact if_pos fun heq => hheader (congrArg some heq)

/-- The checksum check (43 R102). -/
theorem decodePacket_badChecksum {c : Config} {pkt : List Byte} (hlen : pkt.length = 11)
    (hheader : pkt[0]? = some c.header) (hchecksum : pkt[10]? ≠ some (xor8 (pkt.take 10))) :
    decodePacket c pkt = .error .checksum := by
  match pkt, hlen with
  | [hdr, b1, b2, b3, b4, b5, b6, b7, b8, b9, chk], _ =>
    cases hheader
    have hcheck := decodePacket_header c ⟨b1, b2, b3, b4, b5, b6, b7, b8, b9⟩ chk
    exact hcheck.trans (if_neg fun heq => hchecksum (congrArg some heq))

/-- The packets that pass all three checks are the well-formed ones, whatever their field values (D12). -/
theorem decodePacket_ok_iff {c : Config} {pkt : List Byte} :
    (∃ p, decodePacket c pkt = .ok p) ↔ wellFormedPacket c pkt := by
  rw [wellFormedPacket_iff]
  constructor
  · rintro ⟨p, hp⟩
    exact ⟨p, encodePacket_of_decodePacket hp⟩
  · rintro ⟨p, rfl⟩
    exact ⟨p, decodePacket_encodePacket c p⟩

/-- Well-formedness with the checksum check in its equivalent form: all eleven bytes cancel (30_encoding R54). -/
theorem wellFormedPacket_iff_xor8 {c : Config} {pkt : List Byte} :
    wellFormedPacket c pkt ↔ pkt.length = 11 ∧ pkt[0]? = some c.header ∧ xor8 pkt = 0 := by
  constructor
  · rintro ⟨hlen, hheader, hchecksum⟩
    exact ⟨hlen, hheader, (checksumCheckIsZeroTest pkt hlen).1 hchecksum⟩
  · rintro ⟨hlen, hheader, hzero⟩
    exact ⟨hlen, hheader, (checksumCheckIsZeroTest pkt hlen).2 hzero⟩

/-- What a packet that the decoder accepts satisfies (43 R100 to R102). -/
theorem checks_of_decodePacket {c : Config} {pkt : List Byte} {p : Packet} (h : decodePacket c pkt = .ok p) :
    pkt.length = 11 ∧ pkt[0]? = some c.header ∧ xor8 pkt = 0 :=
  wellFormedPacket_iff_xor8.1 (decodePacket_ok_iff.1 ⟨p, h⟩)

/-- A delimiter drops a frame that fails a check: the buffer is lost, `CS` is kept (41 R82, 60 R121). -/
theorem exec_pushDelim_invalid {s : State} {k : Cause} (h : frameVerdict s.cfg s.buf = .error k) :
    exec .pushDelim s = .next { s with buf := [], results := s.results ++ [.frameDecoded false] } := by
  rw [exec_pushDelim, pushDelim_invalid h]
  rfl

/-! ### The packet of a snapshot -/

/-- The packet whose projection is a given value of `CS`; `packetCS_eq_iff` ties it to the machine's projection. -/
def packetOfCS (c : Config) (v : CS) : Packet :=
  { s0x := v.s0x, s0y := v.s0y, s1x := v.s1x, s1y := v.s1y, t0 := v.t0, t1 := v.t1
    btn7 := match c.btnByteOrder with
      | .little => v.btn.extractLsb' 0 8
      | .big => v.btn.extractLsb' 8 8
    btn8 := match c.btnByteOrder with
      | .little => v.btn.extractLsb' 8 8
      | .big => v.btn.extractLsb' 0 8
    dpad := v.dpad }

theorem packetCS_packetOfCS (c : Config) (v : CS) : packetCS c (packetOfCS c v) = v := by
  have hbytes : (v.btn.extractLsb' 8 8 ++ v.btn.extractLsb' 0 8 : Half) = v.btn :=
    BitVec.extractLsb'_append_extractLsb'
  simp only [packetCS, packetOfCS, packetButtons]
  cases c.btnByteOrder <;> simp only [hbytes]

theorem packetOfCS_packetCS (c : Config) (p : Packet) : packetOfCS c (packetCS c p) = p := by
  simp only [packetCS, packetOfCS, packetButtons]
  cases c.btnByteOrder <;> simp only [BitVec.extractLsb'_append_eq_left, BitVec.extractLsb'_append_eq_right]

/-- The projection is a bijection between packets and values of `CS`. -/
theorem packetCS_eq_iff {c : Config} {p : Packet} {v : CS} : packetCS c p = v ↔ p = packetOfCS c v := by
  constructor
  · rintro rfl
    exact (packetOfCS_packetCS c p).symm
  · rintro rfl
    exact packetCS_packetOfCS c v

theorem packetButtons_eq_ite (order : ByteOrder) (p : Packet) :
    packetButtons order p = if order = .little then p.btn8 ++ p.btn7 else p.btn7 ++ p.btn8 := by
  cases order <;> rfl

/-! ### The obligations -/

/-- Settles O18: the verdict on the frame is the decoder's on its packet, and a failed check drops it. -/
theorem frameChecks : Obligations.FrameChecks := by
  intro s pkt hne hdec
  have hverdict : frameVerdict s.cfg s.buf = decodePacket s.cfg pkt := frameVerdict_of_decode hne hdec
  have hdrop : ∀ k, decodePacket s.cfg pkt = .error k → frameVerdict s.cfg s.buf = .error k ∧
      exec .pushDelim s = .next { s with buf := [], results := s.results ++ [.frameDecoded false] } :=
    fun k hk => ⟨hverdict.trans hk, exec_pushDelim_invalid (hverdict.trans hk)⟩
  obtain ⟨-, haccept, -⟩ := pushDelimDecodesTheFrame s
  refine ⟨fun hlen => hdrop _ (decodePacket_badLength _ hlen),
    fun hlen hheader => hdrop _ (decodePacket_badHeader hlen hheader),
    fun hlen hheader hchecksum => hdrop _ (decodePacket_badChecksum hlen hheader hchecksum),
    fun hwf => ⟨?_, haccept pkt hne hdec hwf⟩⟩
  rw [hverdict]
  exact decodePacket_ok_iff.2 hwf

/-- Settles O19: another byte at offset 0 is another header; another byte elsewhere keeps the header and makes the
exclusive-or of the packet its difference, which is not zero. -/
theorem singleByteChangeIsDetected : Obligations.SingleByteChangeIsDetected := by
  intro c pkt p k b hp hk hb
  obtain ⟨hlen, hheader, hzero⟩ := checks_of_decodePacket hp
  have hkpkt : k < pkt.length := hlen ▸ hk
  have hlen' : (pkt.set k b).length = 11 := List.length_set.trans hlen
  split
  · next hk0 =>
    subst hk0
    refine decodePacket_badHeader hlen' ?_
    rw [List.getElem?_set_self hkpkt, ← hheader]
    exact hb.symm
  · next hk0 =>
    have hheader' : (pkt.set k b)[0]? = some c.header := (List.getElem?_set_ne hk0).trans hheader
    refine decodePacket_badChecksum hlen' hheader' fun hchecksum => hb ?_
    have hxor := (checksumCheckIsZeroTest _ hlen').1 hchecksum
    rw [xor8_set hkpkt, hzero] at hxor
    have heq : pkt[k] = b := BitVec.xor_eq_zero_iff.1 (BitVec.xor_zero.symm.trans hxor)
    rw [List.getElem?_eq_getElem hkpkt, heq]

/-- Settles O20: the accepted packet's bytes cancel, so the differences cancel exactly when the other bytes do. -/
theorem cancellingChangesAreAccepted : Obligations.CancellingChangesAreAccepted := by
  intro c pkt q p hp hq hheader
  obtain ⟨hlen, hpkt, hzero⟩ := checks_of_decodePacket hp
  have hdiff : xor8 (List.zipWith (· ^^^ ·) pkt q) = xor8 q := by
    rw [xor8_zipWith (hlen.trans hq.symm), hzero]
    exact BitVec.zero_xor
  rw [hdiff, decodePacket_ok_iff, wellFormedPacket_iff_xor8]
  exact ⟨fun ⟨_, _, hxor⟩ => hxor, fun hxor => ⟨hq, hheader.trans hpkt, hxor⟩⟩

/-- Settles O21: a swap keeps the header and permutes the bytes, so they still cancel. -/
theorem swappedBytesAreAccepted : Obligations.SwappedBytesAreAccepted := by
  intro c pkt p j k hp hj1 hj9 hk1 hk9
  obtain ⟨hlen, hheader, hzero⟩ := checks_of_decodePacket hp
  have hj : j < pkt.length := by omega
  have hk : k < pkt.length := by omega
  rw [List.getD_eq_getElem _ _ hj, List.getD_eq_getElem _ _ hk, decodePacket_ok_iff, wellFormedPacket_iff_xor8]
  refine ⟨by rw [List.length_set, List.length_set, hlen], ?_, ?_⟩
  · rw [List.getElem?_set_ne (by omega), List.getElem?_set_ne (by omega), hheader]
  · rw [xor8_perm (List.set_set_perm hj hk), hzero]

/-- Settles O22: the well-formed packets are the encodings, and one of them projects to the value exactly when its body
is `packetOfCS`. -/
theorem onePacketPerSnapshot : Obligations.OnePacketPerSnapshot := by
  intro c v
  refine ⟨encodePacket c (packetOfCS c v), ⟨wellFormedPacket_iff.2 ⟨_, rfl⟩, ?_⟩, fun q hq hv => ?_⟩
  · rw [projectionOf_encodePacket, packetCS_packetOfCS]
  · obtain ⟨p, rfl⟩ := wellFormedPacket_iff.1 hq
    rw [projectionOf_encodePacket] at hv
    rw [packetCS_eq_iff.1 hv]

/-- Settles O23: PKT.UPDATE writes the projection, whose bitmask is the two bytes in the order of the parameter. -/
theorem pktUpdateProjects : Obligations.PktUpdateProjects := by
  intro s p
  rw [← packetButtons_eq_ite]
  rfl

end Sys2Proof.Machine
end

section
/-! PROOFS of the family 44_state_queries: a query answers from `CS` and writes nothing, and so do any number of them.
The layer below says once what each query answers (`exec_query`), that its request means the same for every
configuration (`decodeRequest_query`), and how one of a caller's queries steps (`step_query`); the run of a sequence is
an induction on it. -/

namespace Sys2Proof.Machine

/-! ### One query -/

theorem exec_qButton (i : Fin 16) (s : State) :
    exec (.qButton i) s = .next (s.respond (.pressed (s.cs.btn.getLsbD i))) := rfl

theorem exec_qDpad (s : State) : exec .qDpad s = .next (s.respond (.code s.cs.dpad)) := rfl

theorem exec_qRaw (f : CsField) (s : State) : exec (.qRaw f) s = .next (s.respond (rawField s.cs f)) := rfl

/-- One answer serves every state with the same `CS`, and a query does nothing but give it (44 R114). -/
theorem exec_query {i : Instr} (hquery : isQuery i = true) (v : CS) :
    ∃ r, ∀ s : State, s.cs = v → exec i s = .next (s.respond r) := by
  cases i with
  | qButton n => exact ⟨.pressed (v.btn.getLsbD n), fun s hcs => hcs ▸ exec_qButton n s⟩
  | qDpad => exact ⟨.code v.dpad, fun s hcs => hcs ▸ exec_qDpad s⟩
  | qRaw f => exact ⟨rawField v f, fun s hcs => hcs ▸ exec_qRaw f s⟩
  | _ => cases hquery

/-- A request that decodes to a query under one configuration decodes to it under every other: its written form names
no parameter. -/
theorem decodeRequest_query {c : Config} {q : Request} {i : Instr} (hdecode : decodeRequest c q = .ok i)
    (hquery : isQuery i = true) (c' : Config) : decodeRequest c' q = .ok i := by
  have hform : encode c i = .request q := encode_of_decodeRequest hdecode
  cases i with
  | qButton n => cases hform; exact decodeRequest_qButton c' n
  | qDpad | qRaw => cases hform; rfl
  | _ => cases hquery

/-! ### A caller's queries -/

/-- A step of a caller's query takes the request, records the answer and touches nothing else. -/
theorem step_query {c : Config} {q : Request} {i : Instr} (hdecode : decodeRequest c q = .ok i)
    (hquery : isQuery i = true) (v : CS) :
    ∃ r, ∀ s : State, s.cs = v → ∀ rest results,
      step (s.withCaller (q :: rest) results) = .next (s.withCaller rest (results ++ [r])) := by
  obtain ⟨r, hexec⟩ := exec_query hquery v
  refine ⟨r, fun s hcs rest results => ?_⟩
  rw [step_of_decode rfl (decodeRequest_query hdecode hquery _)]
  exact hexec (s.withCaller rest results) hcs

/-- A run of queries gives one answer each, the same from every state with the same `CS`, and touches nothing else. -/
theorem runsTo_queries {c : Config} {qs : List Request}
    (hqs : ∀ q ∈ qs, ∃ i, decodeRequest c q = .ok i ∧ isQuery i = true) (v : CS) :
    ∃ rs, rs.length = qs.length ∧ ∀ s : State, s.cs = v → ∀ rest results,
      RunsTo qs.length (s.withCaller (qs ++ rest) results) (s.withCaller rest (results ++ rs)) := by
  induction qs with
  | nil => exact ⟨[], rfl, fun s _ rest results => by simpa using runsTo_zero (s.withCaller rest results)⟩
  | cons q qs ih =>
    obtain ⟨⟨i, hdecode, hquery⟩, htail⟩ := List.forall_mem_cons.1 hqs
    obtain ⟨r, hstep⟩ := step_query hdecode hquery v
    obtain ⟨rs, hlen, hrun⟩ := ih htail
    refine ⟨r :: rs, congrArg Nat.succ hlen, fun s hcs rest results => ?_⟩
    have htailRun := hrun s hcs rest (results ++ [r])
    rw [List.append_assoc] at htailRun
    exact runsTo_succ (hstep s hcs (qs ++ rest) results) htailRun

/-! ### The obligations -/

/-- Settles O57: one query by its answer, a sequence by induction, each step of which keeps `CS` for the next. -/
theorem queriesAreFreeOfSideEffects : Obligations.QueriesAreFreeOfSideEffects := by
  refine ⟨fun i s hquery => exec_query hquery s.cs, fun qs s hqs => ?_⟩
  obtain ⟨rs, hlen, hrun⟩ := runsTo_queries hqs s.cs
  exact ⟨rs, hlen, fun s' hcs => hrun s' hcs s'.pending s'.results⟩

/-- Settles O54, by what Q.BUTTON answers. -/
theorem queryButtonReadsItsBit : Obligations.QueryButtonReadsItsBit :=
  fun s i => exec_qButton i s

/-- Settles O55, by what Q.DPAD answers. -/
theorem queryDpadReadsTheCode : Obligations.QueryDpadReadsTheCode :=
  exec_qDpad

/-- Settles O56, by what Q.RAW answers for each field. -/
theorem queryRawReadsTheField : Obligations.QueryRawReadsTheField :=
  fun s => ⟨exec_qRaw .s0x s, exec_qRaw .s0y s, exec_qRaw .s1x s, exec_qRaw .s1y s, exec_qRaw .t0 s, exec_qRaw .t1 s,
    exec_qRaw .btn s, exec_qRaw .dpad s⟩

end Sys2Proof.Machine
end

section
/-! PROOFS of the family 60_exceptions: the drop, the table of its causes, and the idle block. The layer below says once
which cause a delimiter meets (`frameVerdict_error_iff`), in the order of the checks, and what the operation that meets a
cause leaves behind (`exec_of_dropCause`). -/

namespace Sys2Proof.Machine

/-! ### The cause a delimiter meets -/

/-- The condition column of 60 R122 for a delimiter, where each cause asks that the earlier ones of R124 are absent;
`frameVerdict_error_iff` ties it to the machine's verdict. -/
def FrameCause (c : Config) (buf : Memory) : Cause → Prop
  | .noneEmpty => buf = []
  | .decode => buf ≠ [] ∧ escDecode c (buf ++ [delim]) = none
  | .length => buf ≠ [] ∧ ∃ pkt, escDecode c (buf ++ [delim]) = some pkt ∧ pkt.length ≠ 11
  | .header => buf ≠ [] ∧ ∃ pkt, escDecode c (buf ++ [delim]) = some pkt ∧ pkt.length = 11 ∧ pkt[0]? ≠ some c.header
  | .checksum => buf ≠ [] ∧ ∃ pkt, escDecode c (buf ++ [delim]) = some pkt ∧ pkt.length = 11 ∧
      pkt[0]? = some c.header ∧ pkt[10]? ≠ some (xor8 (pkt.take 10))
  | .overflow => False
  | .unknownId => False

theorem frameVerdict_of_frameCause {c : Config} {buf : Memory} {k : Cause} (h : FrameCause c buf k) :
    frameVerdict c buf = .error k := by
  cases k with
  | noneEmpty => exact if_pos h
  | decode =>
    obtain ⟨hne, hdec⟩ := h
    simp only [frameVerdict, if_neg hne, hdec]
  | length =>
    obtain ⟨hne, pkt, hdec, hlen⟩ := h
    exact (frameVerdict_of_decode hne hdec).trans (decodePacket_badLength c hlen)
  | header =>
    obtain ⟨hne, pkt, hdec, hlen, hheader⟩ := h
    exact (frameVerdict_of_decode hne hdec).trans (decodePacket_badHeader hlen hheader)
  | checksum =>
    obtain ⟨hne, pkt, hdec, hlen, hheader, hchecksum⟩ := h
    exact (frameVerdict_of_decode hne hdec).trans (decodePacket_badChecksum hlen hheader hchecksum)
  | overflow | unknownId => exact h.elim

/-- A frame without any of the causes is valid: the checks, taken in their order, leave nothing out. -/
theorem frameCause_or_valid (c : Config) (buf : Memory) :
    (∃ k, FrameCause c buf k) ∨ ∃ p, frameVerdict c buf = .ok p := by
  by_cases hne : buf = []
  · exact .inl ⟨.noneEmpty, hne⟩
  cases hdec : escDecode c (buf ++ [delim]) with
  | none => exact .inl ⟨.decode, hne, hdec⟩
  | some pkt =>
    obtain hlen | hlen := ne_or_eq pkt.length 11
    · exact .inl ⟨.length, hne, pkt, hdec, hlen⟩
    obtain hheader | hheader := ne_or_eq pkt[0]? (some c.header)
    · exact .inl ⟨.header, hne, pkt, hdec, hlen, hheader⟩
    obtain hchecksum | hchecksum := ne_or_eq pkt[10]? (some (xor8 (pkt.take 10)))
    · exact .inl ⟨.checksum, hne, pkt, hdec, hlen, hheader, hchecksum⟩
    rw [frameVerdict_of_decode hne hdec]
    exact .inr (decodePacket_ok_iff.2 ⟨hlen, hheader, hchecksum⟩)

/-- The verdict is a function, so the cause it names is the one whose condition holds. -/
theorem frameVerdict_error_iff {c : Config} {buf : Memory} {k : Cause} :
    frameVerdict c buf = .error k ↔ FrameCause c buf k := by
  refine ⟨fun hverdict => ?_, frameVerdict_of_frameCause⟩
  obtain ⟨k', hcause⟩ | ⟨p, hp⟩ := frameCause_or_valid c buf
  · have hk : k' = k := Except.error.inj ((frameVerdict_of_frameCause hcause).symm.trans hverdict)
    exact hk ▸ hcause
  · cases hp.symm.trans hverdict

/-! ### The cause of each operation -/

theorem dropCause_pushDelim {s : State} {k : Cause} :
    dropCause .pushDelim s = some k ↔ FrameCause s.cfg s.buf k := by
  rw [← frameVerdict_error_iff]
  cases hverdict : frameVerdict s.cfg s.buf <;> simp [dropCause, hverdict]

theorem dropCause_pushData {b : Byte} {s : State} {k : Cause} :
    dropCause (.pushData b) s = some k ↔ s.cfg.bufMax ≤ s.buf.length ∧ k = .overflow := by
  by_cases hroom : s.buf.length < s.cfg.bufMax
  · simp [dropCause, State.len, hroom]
  · simpa [dropCause, State.len, hroom, Nat.not_lt.1 hroom] using eq_comm

theorem dropCause_eq_none {i : Instr} (s : State) (hpush : isPush i = false)
    (hignore : ∀ id p, i ≠ .busIgnore id p) : dropCause i s = none := by
  cases i with
  | pushDelim | pushData | pushN => cases hpush
  | busIgnore id p => exact absurd rfl (hignore id p)
  | _ => rfl

/-! ### The effect of a cause -/

/-- What the operation that meets a cause leaves. An empty buffer is its own clearing, and BUS.IGNORE has no buffer to
clear (60 R122). -/
def droppedState (k : Cause) (s : State) : State :=
  { s with buf := if k = .noneEmpty ∨ k = .unknownId then s.buf else []
           results := s.results ++ [if k = .unknownId then .decoded false else .frameDecoded false] }

/-- A delimiter leaves the buffer empty whatever its cause: the one cause that spares the buffer finds it empty. -/
theorem droppedState_of_frameCause {s : State} {k : Cause} (h : FrameCause s.cfg s.buf k) :
    droppedState k s = { s with buf := [], results := s.results ++ [.frameDecoded false] } := by
  cases k with
  | noneEmpty => exact state_eq rfl h rfl rfl rfl
  | decode | length | header | checksum => rfl
  | overflow | unknownId => exact h.elim

/-- An operation that meets a cause and is not refused leaves `droppedState`. -/
theorem exec_of_dropCause {i : Instr} {k : Cause} {s t : State} (hcause : dropCause i s = some k)
    (hexec : exec i s = .next t) : t = droppedState k s := by
  cases i with
  | pushDelim =>
    have hframe := dropCause_pushDelim.1 hcause
    have hdrop := exec_pushDelim_invalid (frameVerdict_of_frameCause hframe)
    rw [droppedState_of_frameCause hframe]
    exact Host.Outcome.next.inj (hexec.symm.trans hdrop)
  | pushData b =>
    obtain ⟨hfull, rfl⟩ := dropCause_pushData.1 hcause
    obtain ⟨hb, -⟩ := execPushData_next_iff.1 hexec
    obtain ⟨-, hdrop⟩ := pushDataAppendsOrDrops s b hb
    exact Host.Outcome.next.inj (hexec.symm.trans (hdrop hfull))
  | busIgnore id p =>
    cases hcause
    obtain ⟨-, -, rfl⟩ := execBusIgnore_next_iff.1 hexec
    rfl
  | _ => cases hcause

/-! ### The obligations -/

/-- Settles O39: a delimiter's causes by the order of the checks, the others by the operation, and the effect by the
operations that have a cause. -/
theorem causeTable : Obligations.CauseTable := by
  intro s
  exact ⟨dropCause_pushDelim, dropCause_pushDelim, dropCause_pushDelim, dropCause_pushDelim, dropCause_pushDelim,
    fun _ => dropCause_pushData.trans (and_iff_left rfl), fun _ _ => rfl, fun _ => dropCause_eq_none s,
    fun _ _ _ => exec_of_dropCause⟩

/-- Settles O2: with an empty script there is no request to decode. -/
theorem stepIdlesWithoutRequest : Obligations.StepIdlesWithoutRequest :=
  fun _ => step_idle

/-- Settles O38: clearing the buffer is all that a drop does to the state, and its cause is not read. -/
theorem dropDiscardsItsCause : Obligations.DropDiscardsItsCause :=
  fun cause s => Prod.ext (raiseDrop_state cause s) (raiseDrop_answer cause s)

end Sys2Proof.Machine
end

section
/-! PROOFS of the family 70_reset_and_hazards: what a step keeps of the parameters and of the caller's side, the frame
right after an overflow, and PRESET. The layer below says once what an operation adds to the answers
(`completed_results`) and what the byte that overflows the buffer does (`pushByte_overflow`). -/

namespace Sys2Proof.Machine

/-! ### The answers of a step -/

/-- The answers given so far stay, and an operation adds at most its own: a PUSH operation one for all its bytes, a bus
operation and a query one, the three others none (00_scope R8). -/
theorem completed_results (i : Instr) (s : State) :
    ∃ rs, rs.length ≤ 1 ∧ (completed i s).results = s.results ++ rs := by
  cases i with
  | pushDelim | pushData | pushN =>
    rw [completed_push rfl, answerFrame, respond_results, pushBytes_results]
    exact ⟨[_], le_rfl, rfl⟩
  | busAnalog | busButton | busIgnore | qButton | qDpad | qRaw => exact ⟨[_], le_rfl, rfl⟩
  | fReset | pktUpdate | pReset => exact ⟨[], Nat.zero_le 1, (List.append_nil _).symm⟩

theorem step_results {s t : State} (h : step s = .next t) :
    ∃ rs, rs.length ≤ 1 ∧ t.results = s.results ++ rs := by
  obtain ⟨-, rfl⟩ | ⟨r, rest, i, -, -, rfl⟩ := step_next_cases h
  · exact ⟨[], Nat.zero_le 1, (List.append_nil _).symm⟩
  · exact completed_results i { s with pending := rest }

/-! ### The frame after an overflow -/

/-- A data byte that finds no room clears the buffer and is lost itself (41 R81). -/
theorem pushByte_overflow {b : Byte} {s : State} (hb : b ≠ delim) (hfull : s.cfg.bufMax ≤ s.buf.length) :
    pushByte b s = (s.clear, false) := by
  rw [pushByte_data hb]
  obtain ⟨hroom, -⟩ | ⟨-, hpush⟩ := pushData_cases b s
  · exact absurd hroom (Nat.not_lt.2 hfull)
  · exact hpush

/-- The overflow leaves an empty buffer, so the frame whose bytes come next is read whole (70 R148). -/
theorem pushBytes_overflow_validFrame {s : State} {b : Byte} {e : List Byte} {p : Packet} (hb : b ≠ delim)
    (hfull : s.cfg.bufMax ≤ s.buf.length) (he : Memory.wf s.cfg.bufMax e = true)
    (h : frameVerdict s.cfg e = .ok p) :
    pushBytes (b :: (e ++ [delim])) s = (s.clear.project p, true) := by
  rw [pushBytes_cons, pushByte_overflow hb hfull, pushBytes_validFrame (clear_buf s) he h]
  rfl

/-! ### The obligations -/

/-- Settles O4: the parameters and the script by what an operation keeps, the answers by what it adds. -/
theorem stepKeepsParameters : Obligations.StepKeepsParameters :=
  fun _ _ hstep => ⟨step_cfg hstep, step_pending hstep, step_results hstep⟩

/-- Settles O35: the frame is read from the buffer that the overflow has just emptied. -/
theorem frameAfterOverflowIsAccepted : Obligations.FrameAfterOverflowIsAccepted := by
  intro s x e pkt hfull hx hne hz hfit hdec hwf
  obtain ⟨p, rfl⟩ := wellFormedPacket_iff.1 hwf
  have he : Memory.wf s.cfg.bufMax e = true := (memory_wf_iff _ _).2 ⟨hfit, hz⟩
  have hvalid : frameVerdict s.cfg e = .ok p := frameVerdict_ok_iff.2 ⟨hne, hdec⟩
  rw [exec_pushN, List.cons_append, ← delim_eq_zero, pushBytes_overflow_validFrame hx hfull.ge he hvalid,
    projectionOf_encodePacket]
  rfl

/-- Settles O60: PRESET is the clearing of the buffer and one write of `CS`, and nothing else. -/
theorem pResetSetsResetValues : Obligations.PResetSetsResetValues :=
  fun _ => rfl

end Sys2Proof.Machine
end
